-- ==== Sys2Proof/Word.lean ====
section
/-! DEFINITION. The widths of the spec's values (00_scope.md R11, R13, R15). -/

namespace Sys2Proof

/-- A byte, "an unsigned 8-bit value, 0..255" (R13). -/
abbrev Byte := BitVec 8

/-- `u16` of R13. -/
abbrev U16 := BitVec 16

/-- `u32` of R13. -/
abbrev U32 := BitVec 32

/-- `Time` is u32 milliseconds (R11, R15). -/
abbrev Time := U32

/-- `Bytes` is a finite sequence of bytes (R15). -/
abbrev Bytes := List Byte

end Sys2Proof
end

