-- ==== Sys2Proof/Config.lean ====
section
/-! DEFINITION. The fixed constants (00_scope.md R9) and the instance parameters (R7, R8, R10, R12). -/

namespace Sys2Proof

/-- `HEADER_SIZE = 7` (R9). -/
abbrev headerSize : Nat := 7

/-- `CHECKSUM_SIZE = 2` (R9). -/
abbrev checksumSize : Nat := 2

/-- `PROTOCOL_VERSION = 1` (R9). -/
abbrev protocolVersion : Byte := 1#8

/-- `PADDING_BYTE = 0xFF` (R9). -/
abbrev paddingByte : Byte := 0xFF#8

/-- `MAX_TOTAL_CHUNKS = 255` (R9). -/
abbrev maxTotalChunks : Nat := 255

/-- The instance parameters, exactly the two of R12. Their legal ranges (R7, R10) are part of the type, so a model
outside them cannot be written down ("A model outside this range is refused", D4). -/
structure Params where
  /-- `P_MAX_PACKET_SIZE`, written `P`: the on-wire size of every packet in bytes (R7). -/
  maxPacketSize : Nat
  /-- `P_MAX_SESSIONS`: the most live sessions the reassembler may hold (R10). -/
  maxSessions : Nat
  packetSize_ge : 10 ≤ maxPacketSize
  packetSize_le : maxPacketSize ≤ 264
  sessions_ge : 1 ≤ maxSessions
  deriving DecidableEq, Repr

/-- `N = P - 7 - 2`, the size in bytes of the payload slot (R8). -/
def Params.N (c : Params) : Nat := c.maxPacketSize - headerSize - checksumSize

/-- `MAX_MESSAGE_LEN = 255 × N` (R9). -/
def Params.maxMessageLen (c : Params) : Nat := maxTotalChunks * c.N

/-- How many sessions beyond one the concurrency cap admits. The spec leaves `P_MAX_SESSIONS` OPEN, "a natural number ≥ 1"
(R10, D5): a free value, with no body, so nothing can be proved of it but what holds for every cap
(DESIGN CHOICE, log entry 4). -/
opaque Config.sessionsBeyondFirst : Nat

/-- The parameters of this hardware: P = 255 ("The value this hardware takes is 255", R7), the cap open (R10). -/
def Config.params : Params where
  maxPacketSize := 255
  maxSessions := Config.sessionsBeyondFirst + 1
  packetSize_ge := by decide
  packetSize_le := by decide
  sessions_ge := Nat.le_add_left 1 _

end Sys2Proof
end

