-- ==== Sys2Proof/Syntax.lean ====
section
/-! DEFINITION. Packets, commands, statuses and responses as typed records (00_scope.md R15, 30_encoding.md R67 to R71). -/

namespace Sys2Proof

/-- The record of one packet (R15). Every field may hold any value of its type; that the payload slot has exactly N bytes
is checked by `Packet.sized`, since N is a parameter of the hardware. -/
structure Packet where
  messageId : U16
  totalChunks : Byte
  chunkIndex : Byte
  payloadSize : Byte
  flags : Byte
  protocolVersion : Byte
  payload : Bytes
  checksum : U16
  deriving DecidableEq, Repr

/-- The eleven commands (R68), one constructor per row of the opcode table, with the operands of R71 in their order. -/
inductive Instr where
  | crc16 (p : Packet)
  | finalize (p : Packet)
  | verify (p : Packet)
  | validate (p : Packet)
  | encode (p : Packet)
  | parse (raw : Bytes)
  | split (buf : Bytes) (startingMessageId : U16)
  | extract (p : Packet)
  | process (p : Packet) (nowMs : Time)
  | prune (nowMs : Time) (timeoutMs : U32)
  | reset
  deriving DecidableEq, Repr

/-- One typed operand value: "Packet records, Bytes, u16 and u32 values" (R67). -/
inductive Value where
  | packet (p : Packet)
  | bytes (b : Bytes)
  | u16 (v : U16)
  | u32 (v : U32)
  deriving DecidableEq, Repr

/-- "A command is the pair `(opcode: u8, operands)`" (R67), as a host agent issues it on the port. -/
structure Command where
  opcode : Byte
  operands : List Value
  deriving DecidableEq, Repr

/-- The status codes by name (R70). -/
inductive Status where
  | ok
  | invalidProtocolVersion
  | invalidMessageId
  | invalidTotalChunks
  | invalidChunkIndex
  | invalidPayloadSize
  | invalidSomFlag
  | invalidEomFlag
  | crcMismatch
  | transportSizeError
  | complete
  | stored
  | duplicate
  | capacityExceeded
  | indexBeyondSession
  | messageTooLong
  | illegalCommand
  deriving DecidableEq, Repr

/-- The results of R71. `absent` is "none". -/
inductive Result where
  | absent
  | crc (v : U16)
  | packet (q : Packet)
  | matched (m : Byte)
  | image (w : Bytes)
  | packets (ps : List Packet)
  | data (b : Bytes)
  deriving DecidableEq, Repr

/-- "A response is the pair `(status: u8, results)`" (R67). -/
structure Response where
  status : Status
  result : Result
  deriving DecidableEq, Repr

end Sys2Proof
end

