-- ==== Sys2Proof/WellFormed.lean ====
section
/-! DEFINITION. The one check a command needs beyond its types: a packet operand's payload has exactly N bytes
(30_encoding.md R71, 92_eei_decisions.md D30). -/

namespace Sys2Proof

/-- `|payload| = N` (R15). -/
def Packet.sized (c : Params) (p : Packet) : Bool := p.payload.length == c.N

/-- A command of the table can be written down at the parameters `c`. -/
def Instr.wf (c : Params) : Instr → Bool
  | .crc16 p => p.sized c
  | .finalize p => p.sized c
  | .verify p => p.sized c
  | .validate p => p.sized c
  | .encode p => p.sized c
  | .parse _ => true
  | .split _ _ => true
  | .extract p => p.sized c
  | .process p _ => p.sized c
  | .prune _ _ => true
  | .reset => true

end Sys2Proof
end

