-- ==== Sys2Proof/Decode.lean ====
section
/-! DEFINITION. The command map (30_encoding.md R68, R69, opcode_table.json): the decoder of a command on the port, and the
encoder beside it. The only bits of a command are the eight of its opcode byte; its operands are typed values (R67). -/

namespace Sys2Proof

/-- The eleven operations of the command map (R68). -/
inductive Mnemonic where
  | crc16 | finalize | verify | validate | encode | parse | split | extract | process | prune | reset
  deriving DecidableEq, Repr

/-- One row of opcode_table.json: format CMD8, an opcode byte under a match and a mask. -/
structure OpcodeRow where
  mnemonic : Mnemonic
  pattern : Byte
  mask : Byte
  deriving DecidableEq, Repr

/-- The command map of R68, in the table's order. -/
def opcodeTable : List OpcodeRow :=
  [ ⟨.crc16,    0b00000001#8, 0xFF#8⟩
  , ⟨.finalize, 0b00000010#8, 0xFF#8⟩
  , ⟨.verify,   0b00000011#8, 0xFF#8⟩
  , ⟨.validate, 0b00000100#8, 0xFF#8⟩
  , ⟨.encode,   0b00000101#8, 0xFF#8⟩
  , ⟨.parse,    0b00000110#8, 0xFF#8⟩
  , ⟨.split,    0b00000111#8, 0xFF#8⟩
  , ⟨.extract,  0b00001000#8, 0xFF#8⟩
  , ⟨.process,  0b00001001#8, 0xFF#8⟩
  , ⟨.prune,    0b00001010#8, 0xFF#8⟩
  , ⟨.reset,    0b00001011#8, 0xFF#8⟩ ]

/-- The row an opcode byte selects. -/
def OpcodeRow.selects (r : OpcodeRow) (op : Byte) : Bool := (op &&& r.mask) == r.pattern

/-- The decoder of the opcode byte, total on its 256 values: "either a row of rule R68 or illegal" (R69). -/
def decodeOpcode (op : Byte) : Option Mnemonic :=
  (opcodeTable.find? (·.selects op)).map (·.mnemonic)

/-- Why a command on the port is no instruction. -/
inductive DecodeError where
  /-- The opcode selects no operation (R69): the engine answers status IllegalCommand. -/
  | illegalCommand
  /-- The operand values are not those R71 types for the opcode. The spec has no such command. -/
  | operandsNotOfCommand
  /-- A packet operand's payload is not N bytes. The spec has no such command (R71, D30). -/
  | payloadNotSlotSize
  deriving DecidableEq, Repr

/-- The operands of each operation, by R71. -/
def assembleOperands : Mnemonic → List Value → Option Instr
  | .crc16,    [.packet p] => some (.crc16 p)
  | .finalize, [.packet p] => some (.finalize p)
  | .verify,   [.packet p] => some (.verify p)
  | .validate, [.packet p] => some (.validate p)
  | .encode,   [.packet p] => some (.encode p)
  | .parse,    [.bytes raw] => some (.parse raw)
  | .split,    [.bytes buf, .u16 startingMessageId] => some (.split buf startingMessageId)
  | .extract,  [.packet p] => some (.extract p)
  | .process,  [.packet p, .u32 nowMs] => some (.process p nowMs)
  | .prune,    [.u32 nowMs, .u32 timeoutMs] => some (.prune nowMs timeoutMs)
  | .reset,    [] => some .reset
  | _, _ => none

/-- The decoder of a command: opcode legality first ("Opcode legality is decided before anything else", R243), then the
typed operands, then the payload slots. -/
def decode (c : Params) (cmd : Command) : Except DecodeError Instr :=
  match decodeOpcode cmd.opcode with
  | none => .error .illegalCommand
  | some m =>
    match assembleOperands m cmd.operands with
    | none => .error .operandsNotOfCommand
    | some i => if i.wf c then .ok i else .error .payloadNotSlotSize

/-- The encoder: the opcode byte of R68 and the operand values of R71. -/
def encode : Instr → Command
  | .crc16 p => ⟨0x01#8, [.packet p]⟩
  | .finalize p => ⟨0x02#8, [.packet p]⟩
  | .verify p => ⟨0x03#8, [.packet p]⟩
  | .validate p => ⟨0x04#8, [.packet p]⟩
  | .encode p => ⟨0x05#8, [.packet p]⟩
  | .parse raw => ⟨0x06#8, [.bytes raw]⟩
  | .split buf startingMessageId => ⟨0x07#8, [.bytes buf, .u16 startingMessageId]⟩
  | .extract p => ⟨0x08#8, [.packet p]⟩
  | .process p nowMs => ⟨0x09#8, [.packet p, .u32 nowMs]⟩
  | .prune nowMs timeoutMs => ⟨0x0A#8, [.u32 nowMs, .u32 timeoutMs]⟩
  | .reset => ⟨0x0B#8, []⟩

/-- The packet all of whose bits are 0, its payload slot N bytes long. -/
def zeroPacket (c : Params) : Packet where
  messageId := 0
  totalChunks := 0
  chunkIndex := 0
  payloadSize := 0
  flags := 0
  protocolVersion := 0
  payload := List.replicate c.N 0
  checksum := 0

/-- Operand values of zeros for each operation: the zero packet, the empty byte sequence, the numeral 0. -/
def zeroOperands (c : Params) : Mnemonic → List Value
  | .crc16 => [.packet (zeroPacket c)]
  | .finalize => [.packet (zeroPacket c)]
  | .verify => [.packet (zeroPacket c)]
  | .validate => [.packet (zeroPacket c)]
  | .encode => [.packet (zeroPacket c)]
  | .parse => [.bytes []]
  | .split => [.bytes [], .u16 0]
  | .extract => [.packet (zeroPacket c)]
  | .process => [.packet (zeroPacket c), .u32 0]
  | .prune => [.u32 0, .u32 0]
  | .reset => []

/-- The command whose opcode byte is `w` (its bits 7..0) and whose operands are zeros. The opcode table gives every row
8 bits and no operand bits, so an `nbits` other than 8 adds no bit (R67; DEDUCED, log entry 7). -/
def tableCommand (c : Params) (_nbits w : Nat) : Command :=
  let op := BitVec.ofNat 8 w
  ⟨op, match decodeOpcode op with | some m => zeroOperands c m | none => []⟩

/-- The instruction the decoder reads from a word numbered as opcode_table.json numbers it, operands zero, at this hardware's
parameters. A word wider than the eight bits of the opcode is no word of the table. -/
def decodeTableWord (nbits w : Nat) : Option Instr :=
  if nbits = 8 ∧ w < 256 then
    match decode Config.params (tableCommand Config.params nbits w) with
    | .ok i => some i
    | .error _ => none
  else none

end Sys2Proof
end

