-- ==== Sys2Proof/Machine/Operands.lean ====
section
/-! DEFINITION. Operand forms: reading and writing bytes of a byte sequence (00_scope.md R14, 20_memory.md R41), a packet's
payload slot, and the operand literals of the assembler syntax (30_encoding.md R72). -/

namespace Sys2Proof.Machine

/-- `b[i]`, byte i of a sequence (R13). The rules read only `i < |b|`; beyond the end the value is never used
(DESIGN CHOICE, log entry 9). -/
def byteAt (b : Bytes) (i : Nat) : Byte := b.getD i 0

/-- `MemRead(b, off, 2)` as R62 assembles it: the byte at the lower offset holds bits 7..0 (R14, R41). -/
def memRead16 (b : Bytes) (off : Nat) : U16 :=
  (byteAt b off).setWidth 16 ||| ((byteAt b (off + 1)).setWidth 16 <<< 8)

/-- The two bytes `MemWrite(b, off, 2, v)` lays down, the one at the lower offset first (R14, R41). -/
def leBytes16 (v : U16) : Bytes := [v.setWidth 8, (v >>> 8).setWidth 8]

/-- `b[i .. j)`, empty when j ≤ i (R13). -/
def slice (b : Bytes) (i j : Nat) : Bytes := (b.drop i).take (j - i)

/-- `payload[0 .. payloadSize)`, the bytes of the slot that carry message data (R63). -/
def validPayload (p : Packet) : Bytes := p.payload.take p.payloadSize.toNat

/-- `payloadSize > N`: the size field runs past the payload slot (R104 to R106, R125, R181). -/
def oversized (c : Params) (p : Packet) : Bool := c.N < p.payloadSize.toNat

/-- `p.chunkIndex == p.totalChunks - 1`, the final chunk (00_scope.md, glossary). The difference is taken in u8; the rules
read it only where `totalChunks ≥ 1` (R120). -/
def isFinalChunk (p : Packet) : Bool := p.chunkIndex == p.totalChunks - 1

/-- A byte sequence literal (R72): hexadecimal pairs `x"48 69"`, or `fill(b, n)`. -/
inductive BytesLit where
  | hex (bs : Bytes)
  | fill (b : Byte) (n : Nat)
  deriving DecidableEq, Repr

/-- What a byte sequence literal stands for (R72): "`fill(b, n)` is `repeat(b, n)`". -/
def bytesOfLit : BytesLit → Bytes
  | .hex bs => bs
  | .fill b n => List.replicate n b

/-- A packet literal `pkt{id=, tot=, idx=, size=, flags=, ver=, payload=…[+pad], crc=}` (R72). -/
structure PacketLit where
  id : U16
  tot : Byte
  idx : Byte
  size : Byte
  flags : Byte
  ver : Byte
  payload : Bytes
  pad : Bool
  crc : Option U16
  deriving DecidableEq, Repr

/-- What a packet literal stands for (R72): "`+pad` extends the payload with 0xFF up to N bytes", "An omitted `crc=` means
the value 0x0000". -/
def packetOfLit (c : Params) (l : PacketLit) : Packet where
  messageId := l.id
  totalChunks := l.tot
  chunkIndex := l.idx
  payloadSize := l.size
  flags := l.flags
  protocolVersion := l.ver
  payload := if l.pad then l.payload ++ List.replicate (c.N - l.payload.length) paddingByte else l.payload
  checksum := l.crc.getD 0

end Sys2Proof.Machine
end

