-- ==== Sys2Proof/Machine/State.lean ====
section
/-! DEFINITION. The engine's state (10_state.md R20 to R24), the command port, the reasons a step can stop, and the state
after reset (70_reset_and_hazards.md R270). -/

namespace Sys2Proof.Machine

/-- A session (R21). An absent slot entry means "not yet received". -/
structure Session where
  totalChunks : Byte
  firstReceivedTimeMs : Time
  receivedCount : Byte
  slots : List (Option Packet)
  deriving DecidableEq, Repr

/-- The session table `S`, a finite map from message id to session (R20, R22), as a list sorted strictly by id, so that equal
maps are equal lists. The order is not observable (R22, D28; DESIGN CHOICE, log entry 8). -/
abbrev Table := List (U16 × Session)

/-- Nothing in the spec stops the engine: "The engine has no trap" (R240), it "never retries, never stops and has no fatal
state" (R246). So no reason for a fault exists and no step faults (safe: nothing is claimed to stop). -/
inductive Fault where
  deriving DecidableEq, Repr

/-- Reasons for which a step has no meaning. No command of the spec meets one. -/
inductive Refusal where
  /-- Raised by an arm of exec whose instruction has no meaning yet; no arm raises it. Safe: the model stops. -/
  | notModelled (mnemonic : String)
  /-- Raised by step on a port content whose operand values are not those R71 types for its opcode: no command of the
  spec. Safe: the model stops (DESIGN CHOICE, log entry 5). -/
  | operandsNotOfCommand
  /-- Raised by step on a port content with a packet operand whose payload is not N bytes: no command of the spec (R71, D30).
  Safe: the model stops (DESIGN CHOICE, log entry 6). -/
  | payloadNotSlotSize
  deriving DecidableEq, Repr

/-- The state of the machine. -/
structure State where
  /-- The instance parameters: constants of the instance (R7, R10, R12), which no step writes (R27, D32;
  DESIGN CHOICE, log entry 3). -/
  params : Params
  /-- The session table `S`, "the engine's only persistent architectural state" (R20). -/
  sessions : Table
  /-- The port's input: the commands the host agents issue, in the order the port accepts them (R46, R249;
  DESIGN CHOICE, log entry 1). -/
  commands : List Command
  /-- The port's output: the responses returned so far, oldest first (R67; DESIGN CHOICE, log entry 2). No command reads it. -/
  responses : List Response
  deriving DecidableEq, Repr

/-- After hardware reset "the session table is empty" (R270). Nothing has been issued on the port and nothing returned. -/
def State.reset : State where
  params := Config.params
  sessions := []
  commands := []
  responses := []

end Sys2Proof.Machine
end

