-- ==== Sys2Proof/Machine/Ops.lean ====
section
/-! DEFINITION. The operations every command shares: returning a response, failing with a status (the engine's only way of
reporting an error, 60_exceptions.md R240), and the session table as a finite map (00_scope.md R14, 10_state.md R22). -/

namespace Sys2Proof.Machine

/-- The number of each status code (R70). -/
def statusCode : Status → Byte
  | .ok => 0x00#8
  | .invalidProtocolVersion => 0x01#8
  | .invalidMessageId => 0x02#8
  | .invalidTotalChunks => 0x03#8
  | .invalidChunkIndex => 0x04#8
  | .invalidPayloadSize => 0x05#8
  | .invalidSomFlag => 0x06#8
  | .invalidEomFlag => 0x07#8
  | .crcMismatch => 0x08#8
  | .transportSizeError => 0x10#8
  | .complete => 0x30#8
  | .stored => 0x31#8
  | .duplicate => 0x32#8
  | .capacityExceeded => 0x33#8
  | .indexBeyondSession => 0x34#8
  | .messageTooLong => 0x40#8
  | .illegalCommand => 0xFF#8

/-- The state after the port has returned one more response. -/
def State.respond (s : State) (r : Response) : State := { s with responses := s.responses ++ [r] }

/-- The state with another session table. -/
def State.setSessions (s : State) (t : Table) : State := { s with sessions := t }

/-- The state once the port has accepted its next command, leaving `rest`. -/
def State.setCommands (s : State) (rest : List Command) : State := { s with commands := rest }

/-- `return <Status>, <values>` ends the command with that status and those result values (R14). -/
def reply (st : Status) (r : Result) (s : State) : Host.Outcome State Fault Refusal :=
  .next (s.respond ⟨st, r⟩)

/-- `raise <Status>` ends the command at once: the response carries the status and no result, and the engine state is as it
was before the command (R14, R240). This is the whole of the engine's error entry: it has no trap, vector or saved state. -/
def raise (st : Status) (s : State) : Host.Outcome State Fault Refusal := reply st .absent s

/-- `S[id]`, where `id ∈ dom(S)` (R14). -/
def lookup (id : U16) : Table → Option Session
  | [] => none
  | (k, v) :: t => if k = id then some v else lookup id t

/-- `S[id] <- s` inserts or replaces (R14), keeping the order by id. -/
def insert (id : U16) (v : Session) : Table → Table
  | [] => [(id, v)]
  | (k, w) :: t =>
    if id.toNat < k.toNat then (id, v) :: (k, w) :: t
    else if k = id then (id, v) :: t
    else (k, w) :: insert id v t

/-- `remove S[id]` deletes (R14). -/
def remove (id : U16) (t : Table) : Table := t.filter (fun e => e.1 != id)

end Sys2Proof.Machine
end

