-- ==== Sys2Proof/Machine/Checksum.lean ====
section
/-! DEFINITION. The checksum engine (40_checksum.md): CRC16, FINALIZE, VERIFY. -/

namespace Sys2Proof.Machine

/-- One single-bit right shift of the CRC register, XORed with the polynomial when the bit shifted out is 1 (R100). -/
def crcShift (r : U16) : U16 :=
  if r.getLsbD 0 then (r >>> 1) ^^^ 0xA001#16 else r >>> 1

/-- One byte: XOR into the low 8 bits of the register, then 8 shifts (R100; its reading of "XOR-then-shift-8 per byte" is
general knowledge, G4, PRESUMED, log entry 10). -/
def crcByte (r : U16) (b : Byte) : U16 :=
  Nat.repeat crcShift 8 (r ^^^ b.setWidth 16)

/-- `Crc16(m)`: initial register 0xFFFF, bytes in sequence order, no final XOR and no bit reversal (R100; the output
processing is general knowledge, G1, PRESUMED, log entry 10). -/
def crc16 (m : Bytes) : U16 := m.foldl crcByte 0xFFFF#16

/-- `HeaderBytes(p)`, the 7-byte header in wire order (R102). -/
def headerBytes (p : Packet) : Bytes :=
  leBytes16 p.messageId ++ [p.totalChunks, p.chunkIndex, p.payloadSize, p.flags, p.protocolVersion]

/-- `CrcScope(p)`: the header, then only the first payloadSize payload bytes (R103). Defined where `payloadSize ≤ N`; every
command that needs it checks that first. -/
def crcScope (p : Packet) : Bytes := headerBytes p ++ validPayload p

/-- The packet with its checksum field computed and every other field kept (R105, R164). -/
def finalized (p : Packet) : Packet := { p with checksum := crc16 (crcScope p) }

/-- The checksum field holds the CRC of the packet's scope (R106, R129). -/
def checksumMatches (p : Packet) : Bool := crc16 (crcScope p) == p.checksum

/-- CRC16 (R104). -/
def execCrc16 (p : Packet) (s : State) : Host.Outcome State Fault Refusal :=
  if oversized s.params p then raise .invalidPayloadSize s
  else reply .ok (.crc (crc16 (crcScope p))) s

/-- FINALIZE (R105). -/
def execFinalize (p : Packet) (s : State) : Host.Outcome State Fault Refusal :=
  if oversized s.params p then raise .invalidPayloadSize s
  else reply .ok (.packet (finalized p)) s

/-- VERIFY (R106): a mismatch is a result, not an error status. -/
def execVerify (p : Packet) (s : State) : Host.Outcome State Fault Refusal :=
  if oversized s.params p then raise .invalidPayloadSize s
  else reply .ok (.matched (if checksumMatches p then 1 else 0)) s

end Sys2Proof.Machine
end

