-- ==== Sys2Proof/Machine/Flags.lean ====
section
/-! DEFINITION. The packet flags byte (30_encoding.md R64). The engine itself has no condition flags (10_state.md R27): no
command writes any. -/

namespace Sys2Proof.Machine

/-- Flags bit 0, SOM: Start-Of-Message (R64). -/
def somFlag (p : Packet) : Bool := p.flags.getLsbD 0

/-- Flags bit 1, EOM: End-Of-Message (R64). -/
def eomFlag (p : Packet) : Bool := p.flags.getLsbD 1

/-- The flags byte of chunk `i` of `total` as SPLIT writes it (R160, R163): SOM iff it is the first chunk, EOM iff it is the
last, bits 2 to 7 zero. -/
def chunkFlags (i total : Nat) : Byte :=
  (if i = 0 then 0x01#8 else 0x00#8) ||| (if i = total - 1 then 0x02#8 else 0x00#8)

end Sys2Proof.Machine
end

