-- ==== Sys2Proof/Machine/Validator.lean ====
section
/-! DEFINITION. The packet validator (41_validator.md): VALIDATE. -/

namespace Sys2Proof.Machine

/-- `Validate(p)`: nine stages in order, the first failing stage's status returned (R120 to R129). It reads neither flags
bits 2 to 7 (but through the CRC) nor the padding (R131), and gives no detail string (R133). -/
def validate (c : Params) (p : Packet) : Status :=
  if p.protocolVersion ≠ protocolVersion then .invalidProtocolVersion
  else if p.messageId = 0 then .invalidMessageId
  else if p.totalChunks.toNat < 1 then .invalidTotalChunks
  else if p.totalChunks.toNat ≤ p.chunkIndex.toNat then .invalidChunkIndex
  else if oversized c p then .invalidPayloadSize
  else if !isFinalChunk p && p.payloadSize.toNat ≠ c.N then .invalidPayloadSize
  else if somFlag p != (p.chunkIndex == 0) then .invalidSomFlag
  else if eomFlag p != isFinalChunk p then .invalidEomFlag
  else if !checksumMatches p then .crcMismatch
  else .ok

/-- VALIDATE (R120): the verdict as its status, no result value. -/
def execValidate (p : Packet) (s : State) : Host.Outcome State Fault Refusal :=
  reply (validate s.params p) .absent s

end Sys2Proof.Machine
end

