-- ==== Sys2Proof/Machine/Codec.lean ====
section
/-! DEFINITION. The wire encoder and the packet parser (42_codec_parser.md): ENCODE, PARSE. -/

namespace Sys2Proof.Machine

/-- `Encode(p)` (R140): header at offsets 0 to 6, the payload slot at 7, the checksum at 7+N, laid out as R60 gives it. -/
def wireEncode (p : Packet) : Bytes := headerBytes p ++ p.payload ++ leBytes16 p.checksum

/-- `Decode(w)` (R142), the field assembly of R62. It checks nothing; defined for `|w| ≥ P`. -/
def wireDecode (c : Params) (w : Bytes) : Packet where
  messageId := memRead16 w 0
  totalChunks := byteAt w 2
  chunkIndex := byteAt w 3
  payloadSize := byteAt w 4
  flags := byteAt w 5
  protocolVersion := byteAt w 6
  payload := slice w 7 (7 + c.N)
  checksum := memRead16 w (7 + c.N)

/-- ENCODE (R141): validates nothing and recomputes no checksum. -/
def execEncode (p : Packet) (s : State) : Host.Outcome State Fault Refusal :=
  reply .ok (.image (wireEncode p)) s

/-- PARSE (R144): the size check (R145), then the first P bytes decoded (R146), then the validator; a packet that fails any
stage is never returned (R147). -/
def execParse (raw : Bytes) (s : State) : Host.Outcome State Fault Refusal :=
  if raw.length < s.params.maxPacketSize then raise .transportSizeError s
  else
    let p := wireDecode s.params (raw.take s.params.maxPacketSize)
    let v := validate s.params p
    if v = .ok then reply .ok (.packet p) s else raise v s

end Sys2Proof.Machine
end

