-- ==== Sys2Proof/Machine/Extractor.lean ====
section
/-! DEFINITION. The payload extractor (44_extractor.md): EXTRACT. -/

namespace Sys2Proof.Machine

/-- `Extract(p)`: exactly the first payloadSize bytes of the slot, never padding (R180). -/
def extract (p : Packet) : Bytes := validPayload p

/-- EXTRACT (R180): only payloadSize is checked (R181, R182). -/
def execExtract (p : Packet) (s : State) : Host.Outcome State Fault Refusal :=
  if oversized s.params p then raise .invalidPayloadSize s
  else reply .ok (.data (extract p)) s

end Sys2Proof.Machine
end

