-- ==== Sys2Proof/Machine/Reassembler.lean ====
section
/-! DEFINITION. The reassembler (45_reassembler.md): PROCESS, PRUNE, RESET. -/

namespace Sys2Proof.Machine

/-- The session a first packet creates: its totalChunks, the time, a count of 0 and that many empty slots (R194). -/
def newSession (p : Packet) (nowMs : Time) : Session where
  totalChunks := p.totalChunks
  firstReceivedTimeMs := nowMs
  receivedCount := 0
  slots := List.replicate p.totalChunks.toNat none

/-- The slot of index `i` is occupied (R196). -/
def occupied (v : Session) (i : Nat) : Bool := (v.slots[i]?.getD none).isSome

/-- The store step (R197): the packet by value in its slot, receivedCount one more. -/
def storePacket (v : Session) (p : Packet) : Session :=
  { v with
    slots := v.slots.set p.chunkIndex.toNat (some p)
    receivedCount := v.receivedCount + 1 }

/-- The output of a completion (R198): the extracted bytes of the stored packets, in ascending slot index. "Reconstruction
concatenates only chunks that are present": an empty slot, which no completion meets, adds nothing. -/
def reassemble (slots : List (Option Packet)) : Bytes :=
  slots.flatMap fun slot => match slot with | some q => extract q | none => []

/-- PROCESS's steps once the packet's session `v` is found or created (R195 to R199). -/
def deliver (p : Packet) (v : Session) (t : Table) : Response × Table :=
  if v.totalChunks.toNat ≤ p.chunkIndex.toNat then (⟨.indexBeyondSession, .absent⟩, t)
  else if occupied v p.chunkIndex.toNat then (⟨.duplicate, .absent⟩, t)
  else
    let w := storePacket v p
    if w.receivedCount = w.totalChunks then
      (⟨.complete, .data (reassemble w.slots)⟩, remove p.messageId t)
    else (⟨.stored, .absent⟩, insert p.messageId w t)

/-- What PROCESS answers and the table it leaves (R191): validation at entry (R192), admission under the cap (R193),
creation (R194), then delivery. A later packet's totalChunks is never compared with the session's (R200). -/
def processPacket (c : Params) (p : Packet) (nowMs : Time) (t : Table) : Response × Table :=
  let verdict := validate c p
  if verdict ≠ .ok then (⟨verdict, .absent⟩, t)
  else
    match lookup p.messageId t with
    | some v => deliver p v t
    | none =>
      if c.maxSessions ≤ t.length then (⟨.capacityExceeded, .absent⟩, t)
      else deliver p (newSession p nowMs) t

/-- PROCESS (R191). -/
def execProcess (p : Packet) (nowMs : Time) (s : State) : Host.Outcome State Fault Refusal :=
  let answer := processPacket s.params p nowMs s.sessions
  reply answer.1.status answer.1.result (s.setSessions answer.2)

/-- `Age(s, now) = (now - s.firstReceivedTimeMs) mod 2^32` (R202): u32 subtraction wraps. -/
def age (v : Session) (nowMs : Time) : U32 := nowMs - v.firstReceivedTimeMs

/-- The session is evicted: its age is strictly greater than the timeout, compared unsigned (R201, R202). -/
def stale (nowMs : Time) (timeoutMs : U32) (v : Session) : Bool := timeoutMs.toNat < (age v nowMs).toNat

/-- PRUNE (R201): every stale session goes, each decided for itself. No count is returned. -/
def execPrune (nowMs : Time) (timeoutMs : U32) (s : State) : Host.Outcome State Fault Refusal :=
  reply .ok .absent (s.setSessions (s.sessions.filter fun e => !stale nowMs timeoutMs e.2))

/-- RESET (R203): every session goes. -/
def execReset (s : State) : Host.Outcome State Fault Refusal :=
  reply .ok .absent (s.setSessions [])

end Sys2Proof.Machine
end

