-- ==== Sys2Proof/Machine/Segmenter.lean ====
section
/-! DEFINITION. The segmenter (43_segmenter.md): SPLIT. -/

namespace Sys2Proof.Machine

/-- `T = ceil(L / N) = (L + N - 1) div N` (R161, R13). -/
def chunkCount (c : Params) (len : Nat) : Nat := (len + c.N - 1) / c.N

/-- `n_i = min(N, L - i×N)`, the bytes chunk i carries (R162). -/
def chunkSize (c : Params) (len i : Nat) : Nat := min c.N (len - i * c.N)

/-- Chunk `i` of the message (R160 to R164): its slice of the buffer, the rest of the slot filled with PADDING_BYTE, the
header fields, and the checksum computed after every other field is set. -/
def chunk (c : Params) (buf : Bytes) (startingMessageId : U16) (i : Nat) : Packet :=
  let total := chunkCount c buf.length
  let n := chunkSize c buf.length i
  finalized
    { messageId := startingMessageId
      totalChunks := BitVec.ofNat 8 total
      chunkIndex := BitVec.ofNat 8 i
      payloadSize := BitVec.ofNat 8 n
      flags := chunkFlags i total
      protocolVersion := protocolVersion
      payload := slice buf (i * c.N) (i * c.N + n) ++ List.replicate (c.N - n) paddingByte
      checksum := 0 }

/-- The packets of one message, in ascending chunkIndex (R165). -/
def chunks (c : Params) (buf : Bytes) (startingMessageId : U16) : List Packet :=
  (List.range (chunkCount c buf.length)).map (chunk c buf startingMessageId)

/-- SPLIT (R160): an empty buffer first, then the length test (R166, R243); the starting id is not checked (R167). -/
def execSplit (buf : Bytes) (startingMessageId : U16) (s : State) : Host.Outcome State Fault Refusal :=
  if buf.length = 0 then reply .ok (.packets []) s
  else if s.params.maxMessageLen < buf.length then raise .messageTooLong s
  else reply .ok (.packets (chunks s.params buf startingMessageId)) s

end Sys2Proof.Machine
end

