-- ==== Sys2Proof/Machine/Dispatch.lean ====
section
/-! DEFINITION. One arm per command (30_encoding.md R68): each calls the command's meaning. -/

namespace Sys2Proof.Machine

def exec (i : Instr) (s : State) : Host.Outcome State Fault Refusal :=
  match i with
  | .crc16 p => Sys2Proof.Machine.execCrc16 p s
  | .finalize p => Sys2Proof.Machine.execFinalize p s
  | .verify p => Sys2Proof.Machine.execVerify p s
  | .validate p => Sys2Proof.Machine.execValidate p s
  | .encode p => Sys2Proof.Machine.execEncode p s
  | .parse raw => Sys2Proof.Machine.execParse raw s
  | .split buf startingMessageId => Sys2Proof.Machine.execSplit buf startingMessageId s
  | .extract p => Sys2Proof.Machine.execExtract p s
  | .process p nowMs => Sys2Proof.Machine.execProcess p nowMs s
  | .prune nowMs timeoutMs => Sys2Proof.Machine.execPrune nowMs timeoutMs s
  | .reset => Sys2Proof.Machine.execReset s

end Sys2Proof.Machine
end

