-- ==== Sys2Proof/Machine/Port.lean ====
section
/-! DEFINITION. The command port (60_exceptions.md R249): accepting the next command, an illegal command's answer, and the
idle engine. -/

namespace Sys2Proof.Machine

/-- The port accepts one command at a time, in order (R46, R249): the next command and the state that has accepted it. -/
def accept (s : State) : Option (Command × State) :=
  match s.commands with
  | [] => none
  | cmd :: rest => some (cmd, s.setCommands rest)

/-- No command waits: the engine "is idle between commands and keeps `S` while idle" (R252; DEDUCED, log entry 11). -/
def idle (s : State) : Host.Outcome State Fault Refusal := .next s

/-- A command whose opcode selects no operation "returns status IllegalCommand (0xFF), no result, and leaves `S` unchanged"
(R69). -/
def answerIllegal (s : State) : Host.Outcome State Fault Refusal := raise .illegalCommand s

/-- The answer to a port content that is no instruction. Only an illegal opcode is a command of the spec (R69); the other
two cannot be written down in it (R71) and are refused by name (DESIGN CHOICE, log entries 5 and 6). -/
def answerUndecoded (e : DecodeError) (s : State) : Host.Outcome State Fault Refusal :=
  match e with
  | .illegalCommand => answerIllegal s
  | .operandsNotOfCommand => .refused .operandsNotOfCommand
  | .payloadNotSlotSize => .refused .payloadNotSlotSize

/-- The engine runs one accepted command as one atomic step (R6, R44). -/
def runCommand (cmd : Command) (s : State) : Host.Outcome State Fault Refusal :=
  match decode s.params cmd with
  | .ok i => exec i s
  | .error e => answerUndecoded e s

/-- The state with the command of a table word issued as the very next one, before any that wait already. -/
def issueTableWord (s : State) (nbits w : Nat) : State :=
  s.setCommands (tableCommand s.params nbits w :: s.commands)

end Sys2Proof.Machine
end

