-- ==== Sys2Proof/Machine/Step.lean ====
section
/-! DEFINITION. One step of the machine: the port's next command, or nothing when none waits. -/

namespace Sys2Proof.Machine

/-- One step (R6): accept the next command and run it; idle when none waits. -/
def step (s : State) : Host.Outcome State Fault Refusal :=
  match accept s with
  | none => idle s
  | some (cmd, s') => runCommand cmd s'

/-- `s` with the command of a word of the opcode table, operands zero, issued as the next one the port accepts. -/
def State.withFetchWord (s : State) (nbits w : Nat) : State := issueTableWord s nbits w

end Sys2Proof.Machine
end

