-- ==== Sys2Proof/Machine/PseudoCommands.lean ====
section
/-! DEFINITION. The pseudo-commands RECEIVE and SEND (30_encoding.md R73): host-side sequences of commands, no opcodes. -/

namespace Sys2Proof.Machine

/-- A host agent issues one command and takes its response, waiting for it before anything else (R273). -/
def issue (i : Instr) (s : State) : Option (Response × State) :=
  match exec i s with
  | .next t => t.responses.getLast?.map fun r => (r, t)
  | .fault _ => none
  | .refused _ => none

/-- `RECEIVE raw, now`: PARSE; if that returns OK with packet p, PROCESS p and its response; otherwise PARSE's response. -/
def receive (raw : Bytes) (nowMs : Time) (s : State) : Option (Response × State) :=
  match issue (.parse raw) s with
  | some (⟨.ok, .packet p⟩, t) => issue (.process p nowMs) t
  | answer => answer

/-- ENCODE of each packet in order, with the images handed to the transport's `sendBytes` in that order (R73). -/
def encodeEach : List Packet → State → Option (List Bytes × State)
  | [], s => some ([], s)
  | p :: ps, s =>
    match issue (.encode p) s with
    | some (⟨.ok, .image w⟩, t) => (encodeEach ps t).map fun r => (w :: r.1, r.2)
    | _ => none

/-- `SEND buf, id`: SPLIT; if that returns OK with packets, ENCODE each in ascending order and hand each image to the transport
(R73). What SEND yields the spec leaves open, after success and when SPLIT fails (R73 says it of RECEIVE alone): the model yields
SPLIT's response, beside the images handed over (none when SPLIT fails) and the state left (DESIGN CHOICE, log entry 20). -/
def send (buf : Bytes) (startingMessageId : U16) (s : State) : Option (Response × List Bytes × State) :=
  match issue (.split buf startingMessageId) s with
  | some (⟨.ok, .packets ps⟩, t) => (encodeEach ps t).map fun r => (⟨.ok, .packets ps⟩, r.1, r.2)
  | some (answer, t) => some (answer, [], t)
  | none => none

end Sys2Proof.Machine
end

