-- ==== Sys2Proof/Safety.lean ====
section
/-! DEFINITION. The invariants of the engine (10_state.md R23, R24), runs of commands (20_memory.md R46), and the terms in
which claims over runs are stated. -/

namespace Sys2Proof.Machine

/-- The table's canonical form: ids strictly rising, so "at most one session per key" (R22). -/
abbrev tableSorted (t : Table) : Prop := t.Pairwise fun a b => a.1.toNat < b.1.toNat

/-- The number of occupied slots (R24). -/
def occupiedCount (slots : List (Option Packet)) : Nat := slots.countP Option.isSome

/-- The session invariants of R24, and the size of the slot array (R21). A stored packet's own totalChunks is not
constrained (R200). -/
structure SessionInv (c : Params) (id : U16) (v : Session) : Prop where
  id_ne_zero : id ≠ 0
  slots_length : v.slots.length = v.totalChunks.toNat
  count_eq : v.receivedCount.toNat = occupiedCount v.slots
  count_pos : 1 ≤ v.receivedCount.toNat
  count_lt : v.receivedCount.toNat < v.totalChunks.toNat
  stored_valid : ∀ i q, v.slots[i]? = some (some q) →
    q.sized c = true ∧ validate c q = .ok ∧ q.messageId = id ∧ q.chunkIndex.toNat = i

/-- What holds of the engine in every state its commands can reach: the table's form, the capacity bound (R23), and R24 of
every live session. -/
structure State.Inv (s : State) : Prop where
  sorted : tableSorted s.sessions
  bounded : s.sessions.length ≤ s.params.maxSessions
  live : ∀ e ∈ s.sessions, SessionInv s.params e.1 e.2

/-- The nine stages of the validator in their order, each with what it demands and the status of its failure, in unsigned
numbers (R121 to R129). -/
def validationStages (c : Params) (p : Packet) : List (Prop × Status) :=
  [ (p.protocolVersion.toNat = 1, .invalidProtocolVersion)
  , (p.messageId.toNat ≠ 0, .invalidMessageId)
  , (1 ≤ p.totalChunks.toNat, .invalidTotalChunks)
  , (p.chunkIndex.toNat < p.totalChunks.toNat, .invalidChunkIndex)
  , (p.payloadSize.toNat ≤ c.N, .invalidPayloadSize)
  , (p.chunkIndex.toNat + 1 ≠ p.totalChunks.toNat → p.payloadSize.toNat = c.N, .invalidPayloadSize)
  , (p.flags.toNat % 2 = 1 ↔ p.chunkIndex.toNat = 0, .invalidSomFlag)
  , (p.flags.toNat / 2 % 2 = 1 ↔ p.chunkIndex.toNat + 1 = p.totalChunks.toNat, .invalidEomFlag)
  , (crc16 (headerBytes p ++ p.payload.take p.payloadSize.toNat) = p.checksum, .crcMismatch) ]

/-- The eight validation codes 0x01 to 0x08 (R70). -/
def validationCodes : List Status :=
  [.invalidProtocolVersion, .invalidMessageId, .invalidTotalChunks, .invalidChunkIndex, .invalidPayloadSize,
    .invalidSomFlag, .invalidEomFlag, .crcMismatch]

/-- The responses R70 ("raised by") and R71 let each command give: its statuses, and the result that goes with each. -/
def answerFits (c : Params) (i : Instr) (r : Response) : Prop :=
  match i with
  | .crc16 _ => (∃ v, r = ⟨.ok, .crc v⟩) ∨ r = ⟨.invalidPayloadSize, .absent⟩
  | .finalize _ => (∃ q, q.sized c = true ∧ r = ⟨.ok, .packet q⟩) ∨ r = ⟨.invalidPayloadSize, .absent⟩
  | .verify _ => r = ⟨.ok, .matched 1⟩ ∨ r = ⟨.ok, .matched 0⟩ ∨ r = ⟨.invalidPayloadSize, .absent⟩
  | .validate _ => r = ⟨.ok, .absent⟩ ∨ ∃ st ∈ validationCodes, r = ⟨st, .absent⟩
  | .encode _ => ∃ w, w.length = c.maxPacketSize ∧ r = ⟨.ok, .image w⟩
  | .parse _ => (∃ q, q.sized c = true ∧ r = ⟨.ok, .packet q⟩) ∨ r = ⟨.transportSizeError, .absent⟩ ∨
      ∃ st ∈ validationCodes, r = ⟨st, .absent⟩
  | .split _ _ => (∃ ps, ps.length ≤ 255 ∧ (∀ q ∈ ps, q.sized c = true) ∧ r = ⟨.ok, .packets ps⟩) ∨
      r = ⟨.messageTooLong, .absent⟩
  | .extract p => (∃ d, d.length = p.payloadSize.toNat ∧ r = ⟨.ok, .data d⟩) ∨ r = ⟨.invalidPayloadSize, .absent⟩
  | .process _ _ => (∃ d, r = ⟨.complete, .data d⟩) ∨
      (∃ st ∈ [Status.stored, .duplicate, .capacityExceeded, .indexBeyondSession] ++ validationCodes, r = ⟨st, .absent⟩)
  | .prune _ _ => r = ⟨.ok, .absent⟩
  | .reset => r = ⟨.ok, .absent⟩

/-- The commands run one after the other, each from the state the one before it left (R46). -/
def runInstrs : List Instr → State → Option State
  | [], s => some s
  | i :: is, s =>
    match exec i s with
    | .next t => runInstrs is t
    | .fault _ => none
    | .refused _ => none

/-- The instruction gives one of the packets `pkts` to PROCESS. -/
def delivers (pkts : List Packet) (i : Instr) : Prop := ∃ p ∈ pkts, ∃ nowMs, i = .process p nowMs

/-- What R206 lets a command between the deliveries of message `id` be, in the state it starts from: no PRUNE or RESET that
removes the session, and no other packet with the same id. -/
def undisturbing (pkts : List Packet) (id : U16) (s : State) : Instr → Prop
  | .process p _ => p ∈ pkts ∨ p.messageId ≠ id
  | .prune nowMs timeoutMs => ∀ v, lookup id s.sessions = some v → stale nowMs timeoutMs v = false
  | .reset => lookup id s.sessions = none
  | _ => True

/-- Every command of the run is one R206 lets happen. -/
def undisturbed (pkts : List Packet) (id : U16) : List Instr → State → Prop
  | [], _ => True
  | i :: is, s => undisturbing pkts id s i ∧ ∀ t, exec i s = .next t → undisturbed pkts id is t

end Sys2Proof.Machine
end

