-- ==== Sys2Proof/Laws/State.lean ====
section
/-! SUPPORT. One lemma per field per update of the state, and what each shared operation over it can do. -/

namespace Sys2Proof

/-- `N + 9 = P` (R8). -/
theorem Params.N_add (c : Params) : c.N + 9 = c.maxPacketSize := by
  have := c.packetSize_ge
  simp only [Params.N, headerSize, checksumSize]
  omega

/-- `1 ≤ N` (R8). -/
theorem Params.N_pos (c : Params) : 1 ≤ c.N := by
  have := c.packetSize_ge
  simp only [Params.N, headerSize, checksumSize]
  omega

/-- `N ≤ 255` (R8). -/
theorem Params.N_le (c : Params) : c.N ≤ 255 := by
  have := c.packetSize_le
  simp only [Params.N, headerSize, checksumSize]
  omega

/-- A packet is sized when its payload slot has N bytes. -/
theorem Packet.sized_iff (c : Params) (p : Packet) : p.sized c = true ↔ p.payload.length = c.N := by
  simp [Packet.sized]

end Sys2Proof

namespace Sys2Proof.Machine

@[simp] theorem State.respond_params (s : State) (r : Response) : (s.respond r).params = s.params := rfl
@[simp] theorem State.respond_sessions (s : State) (r : Response) : (s.respond r).sessions = s.sessions := rfl
@[simp] theorem State.respond_commands (s : State) (r : Response) : (s.respond r).commands = s.commands := rfl
@[simp] theorem State.respond_responses (s : State) (r : Response) :
    (s.respond r).responses = s.responses ++ [r] := rfl

@[simp] theorem State.setSessions_params (s : State) (t : Table) : (s.setSessions t).params = s.params := rfl
@[simp] theorem State.setSessions_sessions (s : State) (t : Table) : (s.setSessions t).sessions = t := rfl
@[simp] theorem State.setSessions_commands (s : State) (t : Table) : (s.setSessions t).commands = s.commands := rfl
@[simp] theorem State.setSessions_responses (s : State) (t : Table) :
    (s.setSessions t).responses = s.responses := rfl

@[simp] theorem State.setCommands_params (s : State) (cs : List Command) : (s.setCommands cs).params = s.params := rfl
@[simp] theorem State.setCommands_sessions (s : State) (cs : List Command) :
    (s.setCommands cs).sessions = s.sessions := rfl
@[simp] theorem State.setCommands_commands (s : State) (cs : List Command) : (s.setCommands cs).commands = cs := rfl
@[simp] theorem State.setCommands_responses (s : State) (cs : List Command) :
    (s.setCommands cs).responses = s.responses := rfl

/-- Writing back the table it already has leaves the state as it was. -/
@[simp] theorem State.setSessions_self (s : State) : s.setSessions s.sessions = s := rfl

/-- All that returning a response does. -/
theorem reply_eq (st : Status) (r : Result) (s : State) :
    reply st r s = .next { s with responses := s.responses ++ [⟨st, r⟩] } := rfl

/-- All that failing with a status does (R240). -/
theorem raise_eq (st : Status) (s : State) :
    raise st s = .next { s with responses := s.responses ++ [⟨st, .absent⟩] } := rfl

/-- The size field runs past the slot. -/
theorem oversized_iff (c : Params) (p : Packet) : oversized c p = true ↔ c.N < p.payloadSize.toNat := by
  simp [oversized]

end Sys2Proof.Machine
end

