-- ==== Sys2Proof/Laws/Port.lean ====
section
/-! SUPPORT. The decoder and the port: when a command decodes, and what a step does with it. -/

namespace Sys2Proof

/-- A command decodes when its opcode selects an operation, its operands are that operation's, and its packets are sized. -/
theorem decode_eq_ok {c : Params} {cmd : Command} {m : Mnemonic} {i : Instr} (hm : decodeOpcode cmd.opcode = some m)
    (ho : assembleOperands m cmd.operands = some i) (hw : i.wf c = true) : decode c cmd = .ok i := by
  simp only [decode, hm, ho, hw, if_true]

/-- What decodes is well formed. -/
theorem wf_of_decode {c : Params} {cmd : Command} {i : Instr} (h : decode c cmd = .ok i) : i.wf c = true := by
  simp only [decode] at h
  split at h
  · cases h
  · split at h
    · cases h
    · split at h
      · cases h; assumption
      · cases h

end Sys2Proof

namespace Sys2Proof.Machine

/-- All that a step does (R6, R46): it idles, or it runs what the next command decodes to, or it answers what decodes to
nothing. -/
theorem step_cases (s : State) :
    (s.commands = [] ∧ step s = .next s) ∨
    (∃ cmd rest i, s.commands = cmd :: rest ∧ decode s.params cmd = .ok i ∧ step s = exec i (s.setCommands rest)) ∨
    (∃ cmd rest e, s.commands = cmd :: rest ∧ decode s.params cmd = .error e ∧
      step s = answerUndecoded e (s.setCommands rest)) := by
  cases hc : s.commands with
  | nil => exact .inl ⟨rfl, by simp [step, accept, hc, idle]⟩
  | cons cmd rest =>
    cases hd : decode s.params cmd with
    | ok i => exact .inr (.inl ⟨cmd, rest, i, rfl, hd, by simp [step, accept, hc, runCommand, hd]⟩)
    | error e => exact .inr (.inr ⟨cmd, rest, e, rfl, hd, by simp [step, accept, hc, runCommand, hd]⟩)

end Sys2Proof.Machine
end

