-- ==== Sys2Proof/Laws/PerInstr.lean ====
section
/-! SUPPORT. The family of statements made per instruction: decoding an encoded command gives it back. -/

namespace Sys2Proof.Laws.RoundTrip

/-- The command that stands for `i` (R67, R68, R71) decodes to `i` wherever it can be written down. -/
def Statement (i : Instr) : Prop :=
  ∀ c : Params, i.wf c = true → decode c (encode i) = .ok i

theorem crc16 (p : Packet) : Statement (.crc16 p) :=
  fun _ h => decode_eq_ok (m := .crc16) (show decodeOpcode 0x01#8 = _ from rfl) rfl h
theorem finalize (p : Packet) : Statement (.finalize p) :=
  fun _ h => decode_eq_ok (m := .finalize) (show decodeOpcode 0x02#8 = _ from rfl) rfl h
theorem verify (p : Packet) : Statement (.verify p) :=
  fun _ h => decode_eq_ok (m := .verify) (show decodeOpcode 0x03#8 = _ from rfl) rfl h
theorem validate (p : Packet) : Statement (.validate p) :=
  fun _ h => decode_eq_ok (m := .validate) (show decodeOpcode 0x04#8 = _ from rfl) rfl h
theorem encode (p : Packet) : Statement (.encode p) :=
  fun _ h => decode_eq_ok (m := .encode) (show decodeOpcode 0x05#8 = _ from rfl) rfl h
theorem parse (raw : Bytes) : Statement (.parse raw) :=
  fun _ h => decode_eq_ok (m := .parse) (show decodeOpcode 0x06#8 = _ from rfl) rfl h
theorem split (buf : Bytes) (startingMessageId : U16) : Statement (.split buf startingMessageId) :=
  fun _ h => decode_eq_ok (m := .split) (show decodeOpcode 0x07#8 = _ from rfl) rfl h
theorem extract (p : Packet) : Statement (.extract p) :=
  fun _ h => decode_eq_ok (m := .extract) (show decodeOpcode 0x08#8 = _ from rfl) rfl h
theorem process (p : Packet) (nowMs : Time) : Statement (.process p nowMs) :=
  fun _ h => decode_eq_ok (m := .process) (show decodeOpcode 0x09#8 = _ from rfl) rfl h
theorem prune (nowMs : Time) (timeoutMs : U32) : Statement (.prune nowMs timeoutMs) :=
  fun _ h => decode_eq_ok (m := .prune) (show decodeOpcode 0x0A#8 = _ from rfl) rfl h
theorem reset : Statement .reset :=
  fun _ h => decode_eq_ok (m := .reset) (show decodeOpcode 0x0B#8 = _ from rfl) rfl h

end Sys2Proof.Laws.RoundTrip
end

