-- ==== Sys2Proof/Certificates/Slice0/Obligations.lean ====
section
/-! DEFINITION. The statements for the provers. `{ s with … }` spells out a command's frame: whatever is not named in it,
parameters, waiting commands and earlier responses among it, is as it was. -/

open Sys2Proof Sys2Proof.Machine

/-! ## The checksum engine (40_checksum.md) -/

/-- R100: the register starts at 0xFFFF; each byte is XORed into its low 8 bits and shifted out bit by bit, least significant
first, against the reflected polynomial 0xA001; nothing is XORed or reflected at the end. The output processing and the
reading of the per-byte procedure are the spec's general knowledge (G1, G4; PRESUMED, log entry 10). -/
def Obligations.Crc16RegisterRecurrence : Prop :=
  crc16 [] = 0xFFFF#16 ∧
  (∀ (m : Bytes) (b : Byte), crc16 (m ++ [b]) =
    (List.range 8).foldl (fun (c : U16) _ => if c.toNat % 2 = 1 then (c >>> 1) ^^^ 0xA001#16 else c >>> 1)
      (crc16 m ^^^ b.setWidth 16)) ∧
  crc16 [0x31#8, 0x32#8, 0x33#8, 0x34#8, 0x35#8, 0x36#8, 0x37#8, 0x38#8, 0x39#8] = 0x4B37#16

/-- R102: the 7 header bytes in wire order, messageId low byte first, equal to the first 7 bytes of the wire image. -/
def Obligations.HeaderBytesInWireOrder : Prop :=
  ∀ p : Packet,
    headerBytes p =
      [BitVec.ofNat 8 (p.messageId.toNat % 256), BitVec.ofNat 8 (p.messageId.toNat / 256), p.totalChunks, p.chunkIndex,
        p.payloadSize, p.flags, p.protocolVersion] ∧
    (wireEncode p).take 7 = headerBytes p

/-- R103: the scope is the first `7 + payloadSize` bytes of the wire image, and never holds the checksum field. -/
def Obligations.CrcScopeIsWireBytes : Prop :=
  ∀ (c : Params) (p : Packet), p.sized c = true → p.payloadSize.toNat ≤ c.N →
    crcScope p = (wireEncode p).take (7 + p.payloadSize.toNat) ∧
    (crcScope p).length = 7 + p.payloadSize.toNat ∧
    ∀ k, crcScope { p with checksum := k } = crcScope p

/-- R104: CRC16 (opcode 0x01) answers the CRC of the scope, whatever the packet's checksum field, or InvalidPayloadSize. -/
def Obligations.Crc16CommandAnswers : Prop :=
  decodeOpcode 0x01#8 = some .crc16 ∧
  ∀ (p : Packet) (s : State),
    (p.payloadSize.toNat ≤ s.params.N →
      exec (.crc16 p) s = .next { s with responses := s.responses ++
        [⟨.ok, .crc (crc16 (headerBytes p ++ p.payload.take p.payloadSize.toNat))⟩] }) ∧
    (s.params.N < p.payloadSize.toNat →
      exec (.crc16 p) s = .next { s with responses := s.responses ++ [⟨.invalidPayloadSize, .absent⟩] }) ∧
    ∀ k, exec (.crc16 { p with checksum := k }) s = exec (.crc16 p) s

/-- R105: FINALIZE (opcode 0x02) answers the packet with its checksum computed, whatever the field held, and every other
field copied, padding included; it refuses an oversized packet. -/
def Obligations.FinalizeCommandAnswers : Prop :=
  decodeOpcode 0x02#8 = some .finalize ∧
  ∀ (p : Packet) (s : State),
    (p.payloadSize.toNat ≤ s.params.N →
      exec (.finalize p) s = .next { s with responses := s.responses ++
        [⟨.ok, .packet { p with checksum := crc16 (headerBytes p ++ p.payload.take p.payloadSize.toNat) }⟩] }) ∧
    (s.params.N < p.payloadSize.toNat →
      exec (.finalize p) s = .next { s with responses := s.responses ++ [⟨.invalidPayloadSize, .absent⟩] })

/-- R105 (a corner case the spec derives): FINALIZE of its own result, from the state it left, answers the same packet. -/
def Obligations.FinalizeIsIdempotent : Prop :=
  ∀ (p q : Packet) (s t : State), exec (.finalize p) s = .next t →
    t.responses = s.responses ++ [⟨.ok, .packet q⟩] →
    exec (.finalize q) t = .next { t with responses := t.responses ++ [⟨.ok, .packet q⟩] }

/-- R106: VERIFY (opcode 0x03) answers 1 or 0 with status OK, never CrcMismatch, and refuses an oversized packet. -/
def Obligations.VerifyCommandAnswers : Prop :=
  decodeOpcode 0x03#8 = some .verify ∧
  ∀ (p : Packet) (s : State),
    (p.payloadSize.toNat ≤ s.params.N →
      crc16 (headerBytes p ++ p.payload.take p.payloadSize.toNat) = p.checksum →
      exec (.verify p) s = .next { s with responses := s.responses ++ [⟨.ok, .matched 1⟩] }) ∧
    (p.payloadSize.toNat ≤ s.params.N →
      crc16 (headerBytes p ++ p.payload.take p.payloadSize.toNat) ≠ p.checksum →
      exec (.verify p) s = .next { s with responses := s.responses ++ [⟨.ok, .matched 0⟩] }) ∧
    (s.params.N < p.payloadSize.toNat →
      exec (.verify p) s = .next { s with responses := s.responses ++ [⟨.invalidPayloadSize, .absent⟩] })

/-- R107, R131, R180: packets that differ only in padding get the same CRC, the same match, the same verdict and the same
data. FINALIZE's packet keeps its own padding, so what it gives the same is the checksum (DEDUCED, log entry 13). -/
def Obligations.PaddingNeverRead : Prop :=
  ∀ (p : Packet) (pay : Bytes) (s : State), p.payloadSize.toNat ≤ s.params.N →
    pay.take p.payloadSize.toNat = p.payload.take p.payloadSize.toNat →
    exec (.crc16 { p with payload := pay }) s = exec (.crc16 p) s ∧
    exec (.verify { p with payload := pay }) s = exec (.verify p) s ∧
    exec (.validate { p with payload := pay }) s = exec (.validate p) s ∧
    exec (.extract { p with payload := pay }) s = exec (.extract p) s ∧
    ∃ k, exec (.finalize p) s =
        .next { s with responses := s.responses ++ [⟨.ok, .packet { p with checksum := k }⟩] } ∧
      exec (.finalize { p with payload := pay }) s =
        .next { s with responses := s.responses ++ [⟨.ok, .packet { p with payload := pay, checksum := k }⟩] }

/-- R108: two packets of the same payloadSize whose scopes differ in exactly one bit have different CRCs. -/
def Obligations.SingleBitFlipChangesCrc : Prop :=
  ∀ (c : Params) (p q : Packet), p.sized c = true → q.sized c = true →
    p.payloadSize.toNat ≤ c.N → q.payloadSize = p.payloadSize →
    (∃ k j b, j < 8 ∧ (crcScope p)[k]? = some b ∧ crcScope q = (crcScope p).set k (b ^^^ (1#8 <<< j))) →
    crc16 (crcScope q) ≠ crc16 (crcScope p)

/-- R109: a flip of bit 1 of payloadSize that no check finds, at N = 246. -/
def Obligations.SizeFlipPassesUndetected : Prop :=
  ∀ s : State, s.params.maxPacketSize = 255 →
    ∃ p q : Packet,
      p = ⟨0x1234, 1, 0, 1, 0x03, 1, [0x48#8, 0x7D#8, 0x97#8] ++ List.replicate 243 0xFF#8, 0x6681⟩ ∧
      q = { p with payloadSize := p.payloadSize ^^^ 0x02 } ∧
      exec (.validate p) s = .next { s with responses := s.responses ++ [⟨.ok, .absent⟩] } ∧
      exec (.validate q) s = .next { s with responses := s.responses ++ [⟨.ok, .absent⟩] } ∧
      crc16 (crcScope q) = 0x6681 ∧
      exec (.extract p) s = .next { s with responses := s.responses ++ [⟨.ok, .data [0x48#8]⟩] } ∧
      exec (.extract q) s = .next { s with responses := s.responses ++ [⟨.ok, .data [0x48#8, 0x7D#8, 0x97#8]⟩] }

/-! ## The validator (41_validator.md) -/

/-- R120 to R129: VALIDATE (opcode 0x04) answers the status of the first stage that fails, and OK when none fails. -/
def Obligations.FirstFailingStageIsReported : Prop :=
  decodeOpcode 0x04#8 = some .validate ∧
  ∀ (p : Packet) (s : State),
    (∀ k demand st, (validationStages s.params p)[k]? = some (demand, st) → ¬ demand →
      (∀ (j : Nat) (e : Prop × Status), j < k → (validationStages s.params p)[j]? = some e → e.1) →
      exec (.validate p) s = .next { s with responses := s.responses ++ [⟨st, .absent⟩] }) ∧
    ((∀ e ∈ validationStages s.params p, e.1) →
      exec (.validate p) s = .next { s with responses := s.responses ++ [⟨.ok, .absent⟩] })

/-- R132: what a packet for which VALIDATE answers OK has. -/
def Obligations.ValidatedPacketGuarantee : Prop :=
  ∀ (p : Packet) (s : State),
    exec (.validate p) s = .next { s with responses := s.responses ++ [⟨.ok, .absent⟩] } →
    p.protocolVersion = 1 ∧ p.messageId ≠ 0 ∧ 1 ≤ p.totalChunks.toNat ∧
    p.chunkIndex.toNat < p.totalChunks.toNat ∧ p.payloadSize.toNat ≤ s.params.N ∧
    (p.payloadSize.toNat = s.params.N ∨ p.chunkIndex.toNat + 1 = p.totalChunks.toNat) ∧
    (p.flags.getLsbD 0 = true ↔ p.chunkIndex = 0) ∧
    (p.flags.getLsbD 1 = true ↔ p.chunkIndex.toNat + 1 = p.totalChunks.toNat) ∧
    p.checksum = crc16 (headerBytes p ++ p.payload.take p.payloadSize.toNat)

/-- R64, R131: flags bits 2 to 7 take part in no check but the CRC: with the checksum recomputed, any change of them leaves
a valid packet valid. -/
def Obligations.UnusedFlagBitsAccepted : Prop :=
  ∀ (p : Packet) (m : Byte) (s : State), m &&& 0x03#8 = 0#8 →
    exec (.validate p) s = .next { s with responses := s.responses ++ [⟨.ok, .absent⟩] } →
    exec (.validate (finalized { p with flags := p.flags ^^^ m })) s =
      .next { s with responses := s.responses ++ [⟨.ok, .absent⟩] }

/-- R130: VALIDATE, PARSE of the wire image, and PROCESS give the same verdict for the same packet. -/
def Obligations.ThreeUsersGiveOneVerdict : Prop :=
  ∀ (p : Packet) (nowMs : Time) (s : State), p.sized s.params = true →
    ∃ v, exec (.validate p) s = .next { s with responses := s.responses ++ [⟨v, .absent⟩] } ∧
      (v ≠ .ok →
        exec (.parse (wireEncode p)) s = .next { s with responses := s.responses ++ [⟨v, .absent⟩] } ∧
        exec (.process p nowMs) s = .next { s with responses := s.responses ++ [⟨v, .absent⟩] }) ∧
      (v = .ok →
        exec (.parse (wireEncode p)) s = .next { s with responses := s.responses ++ [⟨.ok, .packet p⟩] } ∧
        ∃ r t, exec (.process p nowMs) s = .next { s with sessions := t, responses := s.responses ++ [r] } ∧
          r.status ∈ [Status.complete, .stored, .duplicate, .capacityExceeded, .indexBeyondSession])

/-! ## The wire encoder and the parser (42_codec_parser.md, 30_encoding.md) -/

/-- R60, R140, R141: ENCODE (opcode 0x05) answers the image of P bytes with every field at its offset, checking and recomputing nothing. -/
def Obligations.WireImageLayout : Prop :=
  decodeOpcode 0x05#8 = some .encode ∧
  ∀ (p : Packet) (s : State), p.sized s.params = true →
    ∃ w : Bytes, exec (.encode p) s = .next { s with responses := s.responses ++ [⟨.ok, .image w⟩] } ∧
      w.length = s.params.maxPacketSize ∧
      (w[0]?.map BitVec.toNat = some (p.messageId.toNat % 256)) ∧ (w[1]?.map BitVec.toNat = some (p.messageId.toNat / 256)) ∧
      w[2]? = some p.totalChunks ∧ w[3]? = some p.chunkIndex ∧ w[4]? = some p.payloadSize ∧ w[5]? = some p.flags ∧
      w[6]? = some p.protocolVersion ∧ (∀ k, k < s.params.N → w[7 + k]? = p.payload[k]?) ∧
      (w[7 + s.params.N]?.map BitVec.toNat = some (p.checksum.toNat % 256)) ∧
      (w[8 + s.params.N]?.map BitVec.toNat = some (p.checksum.toNat / 256))

/-- R143: no information is lost either way between packets and wire images. -/
def Obligations.WireFormatRoundTrip : Prop :=
  ∀ c : Params,
    (∀ p : Packet, p.sized c = true → wireDecode c (wireEncode p) = p) ∧
    (∀ w : Bytes, w.length = c.maxPacketSize → (wireDecode c w).sized c = true ∧ wireEncode (wireDecode c w) = w)

/-- R144, R145: PARSE's (opcode 0x06) size check, then the verdict on the packet the first P bytes hold, field by field (R62); the
packet is returned only when the verdict is OK. -/
def Obligations.ParseCommandAnswers : Prop :=
  decodeOpcode 0x06#8 = some .parse ∧
  ∀ (raw : Bytes) (s : State),
    (raw.length < s.params.maxPacketSize →
      exec (.parse raw) s = .next { s with responses := s.responses ++ [⟨.transportSizeError, .absent⟩] }) ∧
    (s.params.maxPacketSize ≤ raw.length →
      ∃ p : Packet,
        p.messageId.toNat = (raw.getD 0 0).toNat + 256 * (raw.getD 1 0).toNat ∧ p.totalChunks = raw.getD 2 0 ∧
        p.chunkIndex = raw.getD 3 0 ∧ p.payloadSize = raw.getD 4 0 ∧ p.flags = raw.getD 5 0 ∧
        p.protocolVersion = raw.getD 6 0 ∧ p.payload = (raw.drop 7).take s.params.N ∧
        p.checksum.toNat = (raw.getD (7 + s.params.N) 0).toNat + 256 * (raw.getD (8 + s.params.N) 0).toNat ∧
        exec (.parse raw) s = .next { s with responses := s.responses ++
          [⟨validate s.params p, if validate s.params p = .ok then .packet p else .absent⟩] })

/-- R146: the bytes from P on have no effect on the response. -/
def Obligations.ParseIgnoresExcessBytes : Prop :=
  ∀ (w extra : Bytes) (s : State), w.length = s.params.maxPacketSize →
    exec (.parse (w ++ extra)) s = exec (.parse w) s

/-- R144, R147: a packet PARSE returns is sized and valid, and its wire image is the buffer's first P bytes. -/
def Obligations.ParsedPacketIsFaithful : Prop :=
  ∀ (raw : Bytes) (p : Packet) (s : State),
    exec (.parse raw) s = .next { s with responses := s.responses ++ [⟨.ok, .packet p⟩] } →
    p.sized s.params = true ∧ validate s.params p = .ok ∧ wireEncode p = raw.take s.params.maxPacketSize

/-! ## The segmenter and the extractor (43_segmenter.md, 44_extractor.md) -/

/-- R160 to R166: SPLIT (opcode 0x07) of the empty buffer answers no packets; of 1 to 255 × N bytes, T = ceil(L / N) packets
in ascending chunkIndex, every field as given; of more, MessageTooLong and no packets. -/
def Obligations.SplitCommandAnswers : Prop :=
  decodeOpcode 0x07#8 = some .split ∧
  ∀ (buf : Bytes) (id : U16) (s : State),
    (buf = [] → exec (.split buf id) s = .next { s with responses := s.responses ++ [⟨.ok, .packets []⟩] }) ∧
    (255 * s.params.N < buf.length →
      exec (.split buf id) s = .next { s with responses := s.responses ++ [⟨.messageTooLong, .absent⟩] }) ∧
    (1 ≤ buf.length → buf.length ≤ 255 * s.params.N →
      ∃ ps : List Packet,
        exec (.split buf id) s = .next { s with responses := s.responses ++ [⟨.ok, .packets ps⟩] } ∧
        ps.length = (buf.length + s.params.N - 1) / s.params.N ∧ 1 ≤ ps.length ∧ ps.length ≤ 255 ∧
        ∀ i q, ps[i]? = some q →
          q.messageId = id ∧ q.totalChunks.toNat = ps.length ∧ q.chunkIndex.toNat = i ∧
          q.payloadSize.toNat = min s.params.N (buf.length - i * s.params.N) ∧
          q.flags = (if i = 0 then 0x01#8 else 0x00#8) ||| (if i + 1 = ps.length then 0x02#8 else 0x00#8) ∧
          q.protocolVersion = 1 ∧ q.payload.length = s.params.N ∧
          q.payload = (buf.drop (i * s.params.N)).take s.params.N ++
            List.replicate (s.params.N - q.payloadSize.toNat) 0xFF#8 ∧
          q.checksum = crc16 (headerBytes q ++ q.payload.take q.payloadSize.toNat))

/-- R162, R165: the valid payload bytes of SPLIT's packets, in the order it gives them, are the buffer. -/
def Obligations.SplitPacketsCarryBuffer : Prop :=
  ∀ (buf : Bytes) (id : U16) (ps : List Packet) (s : State),
    exec (.split buf id) s = .next { s with responses := s.responses ++ [⟨.ok, .packets ps⟩] } →
    ps.flatMap (fun q => q.payload.take q.payloadSize.toNat) = buf

/-- R167, R168: every packet SPLIT returns is sized, and VALIDATE answers OK for it, or InvalidMessageId when the starting id
is 0. -/
def Obligations.SplitPacketsValidate : Prop :=
  ∀ (buf : Bytes) (id : U16) (ps : List Packet) (s : State),
    exec (.split buf id) s = .next { s with responses := s.responses ++ [⟨.ok, .packets ps⟩] } →
    ∀ q ∈ ps, q.sized s.params = true ∧
      (id ≠ 0 → exec (.validate q) s = .next { s with responses := s.responses ++ [⟨.ok, .absent⟩] }) ∧
      (id = 0 → exec (.validate q) s = .next { s with responses := s.responses ++ [⟨.invalidMessageId, .absent⟩] })

/-- R180, R181, R182: EXTRACT (opcode 0x08) answers the first payloadSize bytes of the slot, whatever the other fields, or
InvalidPayloadSize. -/
def Obligations.ExtractCommandAnswers : Prop :=
  decodeOpcode 0x08#8 = some .extract ∧
  ∀ (p : Packet) (s : State),
    (p.payloadSize.toNat ≤ s.params.N →
      exec (.extract p) s = .next { s with responses := s.responses ++ [⟨.ok, .data (p.payload.take p.payloadSize.toNat)⟩] }) ∧
    (s.params.N < p.payloadSize.toNat →
      exec (.extract p) s = .next { s with responses := s.responses ++ [⟨.invalidPayloadSize, .absent⟩] })

/-! ## The reassembler (45_reassembler.md) -/

/-- R192: PROCESS of a packet that fails validation answers the verdict and leaves `S` unchanged. -/
def Obligations.ProcessRejectsInvalidPacket : Prop :=
  ∀ (p : Packet) (nowMs : Time) (s : State) (v : Status), v ≠ .ok →
    exec (.validate p) s = .next { s with responses := s.responses ++ [⟨v, .absent⟩] } →
    exec (.process p nowMs) s = .next { s with responses := s.responses ++ [⟨v, .absent⟩] }

/-- R193, R207: a valid packet of a new id at the cap is dropped with CapacityExceeded and changes nothing; a packet of a live
id is never answered so. -/
def Obligations.CapRefusesNewSessionsOnly : Prop :=
  ∀ (p : Packet) (nowMs : Time) (s : State), validate s.params p = .ok →
    (lookup p.messageId s.sessions = none → s.params.maxSessions ≤ s.sessions.length →
      exec (.process p nowMs) s = .next { s with responses := s.responses ++ [⟨.capacityExceeded, .absent⟩] }) ∧
    (∀ v, lookup p.messageId s.sessions = some v →
      ∃ r t, exec (.process p nowMs) s = .next { s with sessions := t, responses := s.responses ++ [r] } ∧
        r.status ≠ .capacityExceeded)

/-- R194, R197, R199: the first packet of a message of two or more chunks creates its session under the cap, stored in its
slot with a count of 1 and the time of this command; every other session is as it was. -/
def Obligations.FirstChunkCreatesSession : Prop :=
  ∀ (p : Packet) (nowMs : Time) (s : State), validate s.params p = .ok → lookup p.messageId s.sessions = none →
    s.sessions.length < s.params.maxSessions → 2 ≤ p.totalChunks.toNat →
    ∃ t, exec (.process p nowMs) s =
        .next { s with sessions := t, responses := s.responses ++ [⟨.stored, .absent⟩] } ∧
      lookup p.messageId t = some
        ⟨p.totalChunks, nowMs, 1, (List.replicate p.totalChunks.toNat none).set p.chunkIndex.toNat (some p)⟩ ∧
      (∀ k, k ≠ p.messageId → lookup k t = lookup k s.sessions) ∧ t.length = s.sessions.length + 1

/-- R191, R198: a single-chunk message completes in the command that would create its session, under the cap, and leaves the
table as it was. -/
def Obligations.SingleChunkCompletesAtOnce : Prop :=
  ∀ (p : Packet) (nowMs : Time) (s : State), validate s.params p = .ok → lookup p.messageId s.sessions = none →
    s.sessions.length < s.params.maxSessions → p.totalChunks.toNat = 1 →
    exec (.process p nowMs) s = .next { s with responses := s.responses ++
      [⟨.complete, .data (p.payload.take p.payloadSize.toNat)⟩] }

/-- R195, R196: a chunk index beyond the session, which only a packet of more chunks than the session can have, or an occupied
slot whatever the new packet holds, changes nothing. -/
def Obligations.UnplaceableChunkChangesNothing : Prop :=
  ∀ (p : Packet) (nowMs : Time) (s : State) (v : Session), validate s.params p = .ok →
    lookup p.messageId s.sessions = some v →
    (v.totalChunks.toNat ≤ p.chunkIndex.toNat → v.totalChunks.toNat < p.totalChunks.toNat ∧
      exec (.process p nowMs) s = .next { s with responses := s.responses ++ [⟨.indexBeyondSession, .absent⟩] }) ∧
    (∀ q, p.chunkIndex.toNat < v.totalChunks.toNat → v.slots[p.chunkIndex.toNat]? = some (some q) →
      exec (.process p nowMs) s = .next { s with responses := s.responses ++ [⟨.duplicate, .absent⟩] })

/-- R197, R199, R200: a valid packet for an empty slot of a live session, not the last one missing, is stored by value and
counted once, whatever its own totalChunks; every other session is as it was. -/
def Obligations.ChunkIsStoredInItsSlot : Prop :=
  ∀ (p : Packet) (nowMs : Time) (s : State) (v : Session), validate s.params p = .ok →
    lookup p.messageId s.sessions = some v → p.chunkIndex.toNat < v.totalChunks.toNat →
    v.slots[p.chunkIndex.toNat]? = some none → v.receivedCount.toNat + 1 < v.totalChunks.toNat →
    ∃ t w, exec (.process p nowMs) s =
        .next { s with sessions := t, responses := s.responses ++ [⟨.stored, .absent⟩] } ∧
      lookup p.messageId t = some w ∧ w.totalChunks = v.totalChunks ∧
      w.firstReceivedTimeMs = v.firstReceivedTimeMs ∧ w.receivedCount.toNat = v.receivedCount.toNat + 1 ∧
      w.slots = v.slots.set p.chunkIndex.toNat (some p) ∧
      ∀ k, k ≠ p.messageId → lookup k t = lookup k s.sessions

/-- R198, R200: the packet that fills the last missing slot completes the message: the stored chunks' valid bytes in ascending
slot index; the session is removed and every other session is as it was. -/
def Obligations.LastChunkCompletesMessage : Prop :=
  ∀ (p : Packet) (nowMs : Time) (s : State) (v : Session), validate s.params p = .ok →
    lookup p.messageId s.sessions = some v → p.chunkIndex.toNat < v.totalChunks.toNat →
    v.slots[p.chunkIndex.toNat]? = some none → v.receivedCount.toNat + 1 = v.totalChunks.toNat →
    ∃ t, exec (.process p nowMs) s = .next { s with
        sessions := t
        responses := s.responses ++
          [⟨.complete, .data (((v.slots.set p.chunkIndex.toNat (some p)).filterMap id).flatMap
            fun q => q.payload.take q.payloadSize.toNat)⟩] } ∧
      lookup p.messageId t = none ∧ ∀ k, k ≠ p.messageId → lookup k t = lookup k s.sessions

/-- R198, R24: the output of a completion is made of exactly one valid chunk of the message per index, in ascending order, as
many as the session's totalChunks, and has at most 255 × N bytes. For a live session these are the packets in its slots once the
packet is stored, no slot left out; for a new one the packet alone. -/
def Obligations.CompletionHasEveryChunkOnce : Prop :=
  ∀ (p : Packet) (nowMs : Time) (s t : State) (out : Bytes), s.Inv → p.sized s.params = true →
    exec (.process p nowMs) s = .next t → t.responses = s.responses ++ [⟨.complete, .data out⟩] →
    ∃ qs : List Packet,
      out = qs.flatMap (fun q => q.payload.take q.payloadSize.toNat) ∧
      qs.map (fun q => q.chunkIndex.toNat) = List.range qs.length ∧ p ∈ qs ∧
      (∀ q ∈ qs, q.sized s.params = true ∧ validate s.params q = .ok ∧ q.messageId = p.messageId) ∧
      (∀ v, lookup p.messageId s.sessions = some v →
        qs.length = v.totalChunks.toNat ∧ v.slots.set p.chunkIndex.toNat (some p) = qs.map some) ∧
      (lookup p.messageId s.sessions = none → qs = [p]) ∧
      out.length ≤ 255 * s.params.N

/-- R201, R202: PRUNE (opcode 0x0A) removes exactly the sessions whose age mod 2^32 is strictly greater than the timeout. -/
def Obligations.PruneRemovesExactlyStale : Prop :=
  decodeOpcode 0x0A#8 = some .prune ∧
  ∀ (nowMs : Time) (timeoutMs : U32) (s : State), tableSorted s.sessions →
    ∃ t, exec (.prune nowMs timeoutMs) s =
        .next { s with sessions := t, responses := s.responses ++ [⟨.ok, .absent⟩] } ∧
      ∀ k, lookup k t =
        match lookup k s.sessions with
        | none => none
        | some v =>
          if timeoutMs.toNat < (nowMs.toNat + 2 ^ 32 - v.firstReceivedTimeMs.toNat) % 2 ^ 32 then none else some v

/-- R203: RESET (opcode 0x0B) empties the table and answers OK. -/
def Obligations.ResetCommandAnswers : Prop :=
  decodeOpcode 0x0B#8 = some .reset ∧
  ∀ s : State, exec .reset s = .next { s with sessions := [], responses := s.responses ++ [⟨.ok, .absent⟩] }

/-- R205: after a session is pruned, a later packet with its id starts a brand-new session; the chunks stored before are
lost. -/
def Obligations.PrunedMessageStartsAgain : Prop :=
  ∀ (p : Packet) (nowMs later : Time) (timeoutMs : U32) (s : State) (v : Session), s.Inv →
    lookup p.messageId s.sessions = some v → timeoutMs.toNat < (nowMs - v.firstReceivedTimeMs).toNat →
    validate s.params p = .ok → 2 ≤ p.totalChunks.toNat →
    ∃ t u, exec (.prune nowMs timeoutMs) s = .next t ∧ exec (.process p later) t = .next u ∧
      u.responses = t.responses ++ [⟨.stored, .absent⟩] ∧
      lookup p.messageId u.sessions = some
        ⟨p.totalChunks, later, 1, (List.replicate p.totalChunks.toNat none).set p.chunkIndex.toNat (some p)⟩

/-- R45: RESET and PRUNE done twice leave what they leave once; a packet just stored, given again at any time, is answered
Duplicate and changes nothing. -/
def Obligations.RepeatedCommandsAreIdempotent : Prop :=
  ∀ s t u : State,
    (exec .reset s = .next t → exec .reset t = .next u → u.sessions = t.sessions) ∧
    (∀ nowMs timeoutMs, exec (.prune nowMs timeoutMs) s = .next t → exec (.prune nowMs timeoutMs) t = .next u →
      u.sessions = t.sessions) ∧
    (∀ p nowMs later, s.Inv → exec (.process p nowMs) s = .next t →
      t.responses = s.responses ++ [⟨.stored, .absent⟩] →
      exec (.process p later) t = .next { t with responses := t.responses ++ [⟨.duplicate, .absent⟩] })

/-- R190, R204: the session state machine. A message's session comes into being only by PROCESS of a valid packet of that id
under the cap, with that packet in its slot; it changes only by one more chunk stored in an empty slot, every other slot as
before; it goes only by completion, with the packet for its last empty slot, by a PRUNE whose age test holds, or by RESET. -/
def Obligations.SessionLifecycle : Prop :=
  ∀ (i : Instr) (s t : State) (id : U16), s.Inv → exec i s = .next t →
    match lookup id s.sessions, lookup id t.sessions with
    | none, none => True
    | none, some w =>
      ∃ p nowMs, i = .process p nowMs ∧ p.messageId = id ∧ validate s.params p = .ok ∧
        s.sessions.length < s.params.maxSessions ∧ 2 ≤ p.totalChunks.toNat ∧ w.totalChunks = p.totalChunks ∧
        w.firstReceivedTimeMs = nowMs ∧ w.receivedCount = 1 ∧
        w.slots = (List.replicate p.totalChunks.toNat none).set p.chunkIndex.toNat (some p)
    | some v, some w =>
      w = v ∨ ∃ p nowMs, i = .process p nowMs ∧ p.messageId = id ∧ validate s.params p = .ok ∧
        v.slots[p.chunkIndex.toNat]? = some none ∧ w.slots = v.slots.set p.chunkIndex.toNat (some p) ∧
        w.totalChunks = v.totalChunks ∧ w.firstReceivedTimeMs = v.firstReceivedTimeMs ∧
        w.receivedCount.toNat = v.receivedCount.toNat + 1 ∧ w.receivedCount.toNat < w.totalChunks.toNat
    | some v, none =>
      (∃ p nowMs out, i = .process p nowMs ∧ p.messageId = id ∧ validate s.params p = .ok ∧
        v.slots[p.chunkIndex.toNat]? = some none ∧
        v.receivedCount.toNat + 1 = v.totalChunks.toNat ∧
        t.responses = s.responses ++ [⟨.complete, .data out⟩]) ∨
      (∃ nowMs timeoutMs, i = .prune nowMs timeoutMs ∧
        timeoutMs.toNat < (nowMs - v.firstReceivedTimeMs).toNat) ∨
      i = .reset

/-- R206: the packets of a SPLIT, given to PROCESS in any order, with any duplicates, at any times, from a state with room
and no session of that id, with any other commands in between that R206 admits: the PROCESS that delivers the last distinct
chunk returns exactly the buffer, every earlier one Stored or Duplicate, and no session of that id is left. -/
def Obligations.SplitReassemblesInAnyOrder : Prop :=
  ∀ (buf : Bytes) (id : U16) (ps : List Packet) (sender s : State) (run : List Instr) (last : Instr),
    sender.params = s.params → 1 ≤ buf.length → id ≠ 0 →
    exec (.split buf id) sender = .next { sender with responses := sender.responses ++ [⟨.ok, .packets ps⟩] } →
    lookup id s.sessions = none → s.sessions.length < s.params.maxSessions →
    (∀ i, (run ++ [last]).head? = some i → delivers ps i) → undisturbed ps id (run ++ [last]) s →
    delivers ps last →
    (∃ p ∈ ps, ∀ nowMs, Instr.process p nowMs ∉ run) →
    (∀ p ∈ ps, ∃ nowMs, Instr.process p nowMs ∈ run ++ [last]) →
    ∃ (t : State) (rs : List Response), runInstrs (run ++ [last]) s = some t ∧ t.responses = s.responses ++ rs ∧
      rs.length = run.length + 1 ∧ rs[run.length]? = some ⟨.complete, .data buf⟩ ∧
      (∀ (k : Nat) (i : Instr), run[k]? = some i → delivers ps i →
        rs[k]? = some ⟨.stored, .absent⟩ ∨ rs[k]? = some ⟨.duplicate, .absent⟩) ∧
      lookup id t.sessions = none

/-! ## The whole machine (10_state.md, 60_exceptions.md, 70_reset_and_hazards.md) -/

/-- R23, R24: the table's canonical form, the capacity bound and the session invariants are kept by every step. -/
def Obligations.EveryStepKeepsInv : Prop :=
  ∀ s t : State, s.Inv → step s = .next t → t.Inv

/-- R23, R24, R270: they hold after reset. -/
def Obligations.ResetStateMeetsInv : Prop := State.reset.Inv

/-- R270, R7, R10: after reset every message id is absent; P is 255 (so N is 246) and the open cap is at least 1. -/
def Obligations.ResetStateIsEmpty : Prop :=
  State.reset.sessions = [] ∧ (∀ id, lookup id State.reset.sessions = none) ∧
  State.reset.params.maxPacketSize = 255 ∧ State.reset.params.N = 246 ∧ 1 ≤ State.reset.params.maxSessions

/-- R271: after RESET and after hardware reset, every run of commands is answered alike and leaves the same table. -/
def Obligations.ResetCannotBeToldFromHardwareReset : Prop :=
  ∀ (s t : State) (run : List Instr), exec .reset s = .next t →
    ∃ u v rs, runInstrs run t = some u ∧ runInstrs run { State.reset with params := s.params } = some v ∧
      u.responses = t.responses ++ rs ∧ v.responses = rs ∧ u.sessions = v.sessions

/-- R240, R246: every command is answered in every state with one response; a response with any status other than OK,
Complete or Stored leaves `S` as it was and carries no result. -/
def Obligations.FailureLeavesStateAlone : Prop :=
  ∀ (i : Instr) (s : State), ∃ r t, exec i s = .next { s with sessions := t, responses := s.responses ++ [r] } ∧
    (r.status ∉ [Status.ok, .complete, .stored] → t = s.sessions ∧ r.result = .absent)

/-- R20: nothing but `S` is remembered: in two states with the same parameters and the same `S` every command gives the same
response and leaves the same `S`; and a command other than PROCESS, PRUNE and RESET gives the same response whatever `S`
holds, and writes nothing to it. -/
def Obligations.SessionTableIsTheOnlyMemory : Prop :=
  ∀ (i : Instr) (s s' : State), s'.params = s.params →
    (s'.sessions = s.sessions → ∃ r t, exec i s = .next { s with sessions := t, responses := s.responses ++ [r] } ∧
      exec i s' = .next { s' with sessions := t, responses := s'.responses ++ [r] }) ∧
    ((∀ p nowMs, i ≠ .process p nowMs) → (∀ nowMs timeoutMs, i ≠ .prune nowMs timeoutMs) → i ≠ .reset →
      ∃ r, exec i s = .next { s with responses := s.responses ++ [r] } ∧
        exec i s' = .next { s' with responses := s'.responses ++ [r] })

/-- R22 (in the model's form, DESIGN CHOICE, log entry 8): tables in canonical form that hold the same session for every
id are equal. -/
def Obligations.TableIsDeterminedByItsReads : Prop :=
  ∀ t u : Table, tableSorted t → tableSorted u → (∀ id, lookup id t = lookup id u) → t = u

/-- R70, R71: every command that can be written down gives one of its own responses: a status whose row of R70 names the command
under "raised by", with the result R71 types for that status, and no result with any other. -/
def Obligations.EveryAnswerIsTyped : Prop :=
  ∀ (i : Instr) (s : State), i.wf s.params = true →
    ∃ r t, exec i s = .next { s with sessions := t, responses := s.responses ++ [r] } ∧ answerFits s.params i r

/-- R69: opcode 0x00 and opcodes 0x0C to 0xFF, with any operands, are answered IllegalCommand with no result, and `S` is
unchanged; the opcodes between select an operation. -/
def Obligations.IllegalOpcodeIsAnswered : Prop :=
  (∀ (s : State) (cmd : Command) (rest : List Command), s.commands = cmd :: rest →
    (cmd.opcode.toNat = 0 ∨ 0x0C ≤ cmd.opcode.toNat) →
    step s = .next { s with commands := rest, responses := s.responses ++ [⟨.illegalCommand, .absent⟩] }) ∧
  (∀ op : Byte, 1 ≤ op.toNat → op.toNat ≤ 0x0B → (decodeOpcode op).isSome = true)

/-- R6, R249, R252: a step accepts the next command and runs what it decodes to; with none waiting it changes nothing. -/
def Obligations.StepRunsDecodedCommand : Prop :=
  (∀ (s : State) (cmd : Command) (rest : List Command) (i : Instr), s.commands = cmd :: rest →
    decode s.params cmd = .ok i → step s = exec i { s with commands := rest }) ∧
  (∀ s : State, s.commands = [] → step s = .next s)

/-- R27, R249, D32: no step changes the parameters; a step that accepts a command takes exactly that one from the port and
returns exactly one response. -/
def Obligations.StepAnswersOneCommand : Prop :=
  ∀ s t : State, step s = .next t →
    t.params = s.params ∧
    ((s.commands = [] ∧ t = s) ∨
      ∃ cmd r, s.commands = cmd :: t.commands ∧ t.responses = s.responses ++ [r])

/-- R68, R71: the opcode bytes of the command map, with their operands, decode to their commands (one of each family). -/
def Obligations.CommandWordsDecode : Prop :=
  (∀ (c : Params) (p : Packet), p.sized c = true → decode c ⟨0b00000001#8, [.packet p]⟩ = .ok (.crc16 p)) ∧
  (∀ (c : Params) (p : Packet), p.sized c = true → decode c ⟨0b00000100#8, [.packet p]⟩ = .ok (.validate p)) ∧
  (∀ (c : Params) (raw : Bytes), decode c ⟨0b00000110#8, [.bytes raw]⟩ = .ok (.parse raw)) ∧
  (∀ (c : Params) (buf : Bytes) (id : U16), decode c ⟨0b00000111#8, [.bytes buf, .u16 id]⟩ = .ok (.split buf id)) ∧
  (∀ (c : Params) (p : Packet), p.sized c = true → decode c ⟨0b00001000#8, [.packet p]⟩ = .ok (.extract p)) ∧
  (∀ (c : Params) (p : Packet) (nowMs : Time), p.sized c = true →
    decode c ⟨0b00001001#8, [.packet p, .u32 nowMs]⟩ = .ok (.process p nowMs)) ∧
  (∀ (c : Params) (nowMs timeoutMs : U32), decode c ⟨0b00001010#8, [.u32 nowMs, .u32 timeoutMs]⟩ =
    .ok (.prune nowMs timeoutMs)) ∧
  (∀ c : Params, decode c ⟨0b00001011#8, []⟩ = .ok .reset)

/-- R67, R68, R71: every command decodes to itself from its opcode byte and operands. -/
def Obligations.EncodedCommandDecodes : Prop := ∀ i : Instr, Sys2Proof.Laws.RoundTrip.Statement i

/-- The MODEL's stops (DESIGN CHOICE, log entries 5 and 6; R71 and D30 say no such command can be written
down): a legal opcode with operands
of other types, or with a packet whose payload is not N bytes, is refused by name. -/
def Obligations.MalformedPortContentIsRefused : Prop :=
  ∀ (s : State) (cmd : Command) (rest : List Command) (m : Mnemonic), s.commands = cmd :: rest →
    decodeOpcode cmd.opcode = some m →
    (assembleOperands m cmd.operands = none → step s = .refused .operandsNotOfCommand) ∧
    (∀ i, assembleOperands m cmd.operands = some i → i.wf s.params = false → step s = .refused .payloadNotSlotSize)

/-- R70: the number of each status, and that no two share one. -/
def Obligations.StatusCodeNumbers : Prop :=
  [Status.ok, .invalidProtocolVersion, .invalidMessageId, .invalidTotalChunks, .invalidChunkIndex, .invalidPayloadSize,
    .invalidSomFlag, .invalidEomFlag, .crcMismatch, .transportSizeError, .complete, .stored, .duplicate, .capacityExceeded,
    .indexBeyondSession, .messageTooLong, .illegalCommand].map (fun st => (statusCode st).toNat) =
    [0x00, 0x01, 0x02, 0x03, 0x04, 0x05, 0x06, 0x07, 0x08, 0x10, 0x30, 0x31, 0x32, 0x33, 0x34, 0x40, 0xFF] ∧
  ∀ a b : Status, statusCode a = statusCode b → a = b

/-! ## Host-side sequences (30_encoding.md R72, R73) -/

/-- R73: RECEIVE yields PARSE's response with `S` unchanged when PARSE fails, and otherwise PROCESS's response to the packet
PARSE returns. -/
def Obligations.ReceiveIsParseThenProcess : Prop :=
  ∀ (raw : Bytes) (nowMs : Time) (s t : State), exec (.parse raw) s = .next t →
    (∀ st, st ≠ .ok → t.responses = s.responses ++ [⟨st, .absent⟩] →
      receive raw nowMs s = some (⟨st, .absent⟩, t) ∧ t.sessions = s.sessions) ∧
    (∀ p, t.responses = s.responses ++ [⟨.ok, .packet p⟩] →
      ∃ r u, exec (.process p nowMs) t = .next u ∧ u.responses = t.responses ++ [r] ∧
        receive raw nowMs s = some (r, u))

/-- R73: SEND hands over the wire image of each packet of the SPLIT in ascending order, each by one ENCODE, and touches no
session; when SPLIT fails it does not go on to ENCODE. That SEND yields SPLIT's response, in both cases, is the model's choice and
no rule of the spec (DESIGN CHOICE, log entry 20). -/
def Obligations.SendIsSplitThenEncodes : Prop :=
  ∀ (buf : Bytes) (id : U16) (s : State),
    (∀ ps : List Packet, exec (.split buf id) s = .next { s with responses := s.responses ++ [⟨.ok, .packets ps⟩] } →
      send buf id s = some (⟨.ok, .packets ps⟩, ps.map wireEncode,
        { s with responses := s.responses ++
            (Response.mk .ok (.packets ps) :: ps.map fun q => Response.mk .ok (.image (wireEncode q))) })) ∧
    (255 * s.params.N < buf.length →
      send buf id s = some (⟨.messageTooLong, .absent⟩, [],
        { s with responses := s.responses ++ [⟨.messageTooLong, .absent⟩] }))

/-- R72: a packet literal with `+pad` and at most N payload bytes stands for a packet of exactly N payload bytes, the rest
0xFF, and an omitted `crc=` means 0x0000. -/
def Obligations.PaddedLiteralIsSized : Prop :=
  ∀ (c : Params) (l : PacketLit), l.pad = true → l.payload.length ≤ c.N →
    (packetOfLit c l).sized c = true ∧
    (∀ k, k < l.payload.length → (packetOfLit c l).payload[k]? = l.payload[k]?) ∧
    (∀ k, l.payload.length ≤ k → k < c.N → (packetOfLit c l).payload[k]? = some 0xFF#8) ∧
    (l.crc = none → (packetOfLit c l).checksum = 0)
end

