-- ==== Sys2Proof/Laws/Bytes.lean ====
section
/-! SUPPORT. Byte sequences: the little-endian u16, the header, the wire image and the CRC register, each said once. -/

namespace Sys2Proof.Machine

/-- The two little-endian bytes assemble to the value they were taken from (R41). -/
theorem join_leBytes16 (v : U16) :
    (v.setWidth 8).setWidth 16 ||| (((v >>> 8).setWidth 8).setWidth 16 <<< 8) = v := by
  ext i hi
  simp only [BitVec.getElem_or, BitVec.getElem_setWidth, BitVec.getElem_shiftLeft, BitVec.getLsbD_setWidth,
    BitVec.getLsbD_ushiftRight]
  by_cases h : i < 8
  · simp [h, BitVec.getLsbD_eq_getElem hi]
  · have h1 : 8 + (i - 8) = i := by omega
    have h2 : i - 8 < 8 := by omega
    simp [h, h1, h2, BitVec.getLsbD_eq_getElem hi]

/-- Two bytes assembled and taken apart again are the same two bytes (R41). -/
theorem leBytes16_join (a b : Byte) : leBytes16 (a.setWidth 16 ||| (b.setWidth 16 <<< 8)) = [a, b] := by
  have ha : (a.setWidth 16 ||| (b.setWidth 16 <<< 8)).setWidth 8 = a := by
    ext i hi
    simp
  have hb : ((a.setWidth 16 ||| (b.setWidth 16 <<< 8)) >>> 8).setWidth 8 = b := by
    ext i hi
    have h16 : 8 + i < 16 := by omega
    simp [h16, BitVec.getLsbD_eq_getElem hi]
  simp only [leBytes16, ha, hb]

@[simp] theorem leBytes16_length (v : U16) : (leBytes16 v).length = 2 := rfl

/-- The header has 7 bytes (R61). -/
@[simp] theorem headerBytes_length (p : Packet) : (headerBytes p).length = 7 := rfl

/-- A sized packet's wire image has P bytes (R60). -/
theorem wireEncode_length {c : Params} {p : Packet} (h : p.sized c = true) :
    (wireEncode p).length = c.maxPacketSize := by
  rw [Packet.sized_iff] at h
  have := c.N_add
  simp [wireEncode, h]
  omega

/-- The CRC register after a sequence is the register after its first part, run over the second (R100). -/
theorem crc16_append (m n : Bytes) : crc16 (m ++ n) = n.foldl crcByte (crc16 m) := by
  simp [crc16, List.foldl_append]

/-- Finalizing changes the checksum field alone, and the scope does not hold that field (R103, R105). -/
@[simp] theorem crcScope_finalized (p : Packet) : crcScope (finalized p) = crcScope p := rfl

/-- A finalized packet's checksum is the CRC of its scope (R105, R164). -/
@[simp] theorem checksumMatches_finalized (p : Packet) : checksumMatches (finalized p) = true := by
  simp [checksumMatches, crcScope_finalized]
  rfl

end Sys2Proof.Machine
end

