-- ==== Sys2Proof/Laws/Table.lean ====
section
/-! SUPPORT. The session table is a finite map: reads after writes, and the canonical form kept by every operation. -/

namespace Sys2Proof.Machine

@[simp] theorem lookup_nil (id : U16) : lookup id [] = none := rfl

theorem lookup_insert_self (id : U16) (v : Session) (t : Table) : lookup id (insert id v t) = some v := by
  induction t with
  | nil => simp [insert, lookup]
  | cons e t ih =>
    obtain ⟨k, w⟩ := e
    simp only [insert]
    split
    · simp [lookup]
    · split
      · simp [lookup]
      · simp [lookup, *]

theorem lookup_insert_other {id k : U16} (h : k ≠ id) (v : Session) (t : Table) :
    lookup k (insert id v t) = lookup k t := by
  induction t with
  | nil => simp [insert, lookup, Ne.symm h]
  | cons e t ih =>
    obtain ⟨j, w⟩ := e
    simp only [insert]
    split
    · simp [lookup, Ne.symm h]
    · split
      · subst j
        simp [lookup, Ne.symm h]
      · simp [lookup, ih]

theorem lookup_remove_self (id : U16) (t : Table) : lookup id (remove id t) = none := by
  induction t with
  | nil => rfl
  | cons e t ih =>
    obtain ⟨j, w⟩ := e
    by_cases hj : j = id
    · simpa [remove, hj] using ih
    · simpa [remove, lookup, hj] using ih

theorem lookup_remove_other {id k : U16} (h : k ≠ id) (t : Table) : lookup k (remove id t) = lookup k t := by
  induction t with
  | nil => rfl
  | cons e t ih =>
    obtain ⟨j, w⟩ := e
    by_cases hj : j = id
    · subst j
      simpa [remove, lookup, Ne.symm h] using ih
    · have h2 : remove id ((j, w) :: t) = (j, w) :: remove id t := by simp [remove, hj]
      simp [h2, lookup, ih]

theorem mem_of_lookup {id : U16} {v : Session} {t : Table} (h : lookup id t = some v) : (id, v) ∈ t := by
  induction t with
  | nil => simp at h
  | cons e t ih =>
    obtain ⟨j, w⟩ := e
    simp only [lookup] at h
    split at h
    · simp_all
    · exact List.mem_cons_of_mem _ (ih h)

theorem lookup_none_iff {id : U16} {t : Table} : lookup id t = none ↔ ∀ e ∈ t, e.1 ≠ id := by
  induction t with
  | nil => simp
  | cons e t ih =>
    obtain ⟨j, w⟩ := e
    by_cases hj : j = id
    · simp [lookup, hj]
    · simp [lookup, hj, ih]

/-- In a table in canonical form every entry is the one its id reads. -/
theorem lookup_of_mem {id : U16} {v : Session} {t : Table} (hs : tableSorted t) (h : (id, v) ∈ t) :
    lookup id t = some v := by
  induction t with
  | nil => simp at h
  | cons e t ih =>
    obtain ⟨j, w⟩ := e
    rw [tableSorted, List.pairwise_cons] at hs
    rcases List.mem_cons.1 h with h | h
    · cases h
      simp [lookup]
    · have := hs.1 _ h
      have hj : j ≠ id := by rintro rfl; simp at this
      simp [lookup, hj, ih hs.2 h]

theorem remove_of_lookup_none {id : U16} {t : Table} (h : lookup id t = none) : remove id t = t := by
  rw [lookup_none_iff] at h
  simp only [remove, List.filter_eq_self]
  intro e he
  simpa using h e he

theorem mem_insert {id : U16} {v : Session} {t : Table} {e : U16 × Session} (h : e ∈ insert id v t) :
    e = (id, v) ∨ e ∈ t := by
  induction t with
  | nil => simpa [insert] using h
  | cons f t ih =>
    obtain ⟨j, w⟩ := f
    simp only [insert] at h
    split at h
    · simpa using h
    · split at h
      · rcases List.mem_cons.1 h with h | h
        · exact .inl h
        · exact .inr (List.mem_cons_of_mem _ h)
      · rcases List.mem_cons.1 h with h | h
        · exact .inr (h ▸ List.mem_cons_self)
        · exact (ih h).imp_right (List.mem_cons_of_mem _)

/-- A write keeps the canonical form. -/
theorem tableSorted_insert {id : U16} {v : Session} {t : Table} (h : tableSorted t) :
    tableSorted (insert id v t) := by
  induction t with
  | nil => simp [insert]
  | cons e t ih =>
    obtain ⟨j, w⟩ := e
    have hc := h
    rw [tableSorted, List.pairwise_cons] at hc
    simp only [insert]
    split
    · rename_i hlt
      rw [tableSorted, List.pairwise_cons]
      refine ⟨fun a ha => ?_, h⟩
      rcases List.mem_cons.1 ha with ha | ha
      · cases ha; exact hlt
      · exact Nat.lt_trans hlt (hc.1 a ha)
    · split
      · rename_i hj
        rw [tableSorted, List.pairwise_cons]
        exact ⟨fun a ha => hj ▸ hc.1 a ha, hc.2⟩
      · rename_i hge hne
        rw [tableSorted, List.pairwise_cons]
        refine ⟨fun a ha => ?_, ih hc.2⟩
        rcases mem_insert ha with ha | ha
        · subst ha
          have : j.toNat ≠ id.toNat := fun hh => hne (BitVec.eq_of_toNat_eq hh)
          show j.toNat < id.toNat
          omega
        · exact hc.1 a ha

/-- A removal keeps the canonical form, of one id or of any set of sessions. -/
theorem tableSorted_filter {t : Table} (f : U16 × Session → Bool) (h : tableSorted t) : tableSorted (t.filter f) :=
  List.Pairwise.filter f h

theorem tableSorted_remove {id : U16} {t : Table} (h : tableSorted t) : tableSorted (remove id t) :=
  tableSorted_filter _ h

/-- Replacing a session does not change how many are live. -/
theorem length_insert_present {id : U16} {v w : Session} {t : Table} (hs : tableSorted t) (h : lookup id t = some w) :
    (insert id v t).length = t.length := by
  induction t with
  | nil => simp at h
  | cons e t ih =>
    obtain ⟨j, u⟩ := e
    have hc := hs
    rw [tableSorted, List.pairwise_cons] at hc
    by_cases hj : j = id
    · subst j
      simp [insert]
    · simp only [lookup, hj, if_false] at h
      have hm := hc.1 _ (mem_of_lookup h)
      have : ¬ id.toNat < j.toNat := by have : j.toNat < id.toNat := hm; omega
      simp [insert, this, hj, ih hc.2 h]

/-- A new session is one more. -/
theorem length_insert_absent {id : U16} {v : Session} {t : Table} (h : lookup id t = none) :
    (insert id v t).length = t.length + 1 := by
  induction t with
  | nil => simp [insert]
  | cons e t ih =>
    obtain ⟨j, u⟩ := e
    have hj : j ≠ id := by rintro rfl; simp [lookup] at h
    simp only [lookup, hj, if_false] at h
    simp only [insert, hj, if_false]
    split
    · simp
    · simp [ih h]

theorem length_remove_le (id : U16) (t : Table) : (remove id t).length ≤ t.length := List.length_filter_le _ _

/-- What a filtered table reads, by id, when the form is canonical. -/
theorem lookup_filter {t : Table} (hs : tableSorted t) (f : U16 × Session → Bool) (id : U16) :
    lookup id (t.filter f) = (lookup id t).filter fun v => f (id, v) := by
  induction t with
  | nil => rfl
  | cons e t ih =>
    obtain ⟨j, w⟩ := e
    have hc := hs
    rw [tableSorted, List.pairwise_cons] at hc
    by_cases hj : j = id
    · subst j
      have hn : lookup id t = none := lookup_none_iff.2 fun a ha heq => by
        have := hc.1 a ha
        rw [heq] at this
        exact absurd this (Nat.lt_irrefl _)
      by_cases hf : f (id, w) = true
      · simp [lookup, hf, Option.filter]
      · simp [lookup, hf, ih hc.2, hn, Option.filter]
    · by_cases hf : f (j, w) = true
      · simp [lookup, hf, hj, ih hc.2]
      · simp [lookup, hf, hj, ih hc.2]

end Sys2Proof.Machine
end

