-- ==== Sys2Proof/Laws/Exec.lean ====
section
/-! SUPPORT. What exec can do, said once: the shape of every answer, and the six cases of PROCESS. -/

namespace Sys2Proof.Machine

/-- Every command of the table answers: it returns one response, may change the table, and leaves the rest. -/
theorem exec_shape (i : Instr) (s : State) :
    ∃ r t, exec i s = .next { s with sessions := t, responses := s.responses ++ [r] } := by
  cases i with
  | crc16 p => by_cases h : oversized s.params p = true <;> simp [exec, execCrc16, h, reply_eq, raise_eq]
  | finalize p => by_cases h : oversized s.params p = true <;> simp [exec, execFinalize, h, reply_eq, raise_eq]
  | verify p => by_cases h : oversized s.params p = true <;> simp [exec, execVerify, h, reply_eq, raise_eq]
  | validate p => exact ⟨_, _, rfl⟩
  | encode p => exact ⟨_, _, rfl⟩
  | parse raw =>
    simp only [exec, execParse]
    split
    · exact ⟨_, _, rfl⟩
    · split <;> exact ⟨_, _, rfl⟩
  | split buf id =>
    simp only [exec, execSplit]
    split
    · exact ⟨_, _, rfl⟩
    · split <;> exact ⟨_, _, rfl⟩
  | extract p => by_cases h : oversized s.params p = true <;> simp [exec, execExtract, h, reply_eq, raise_eq]
  | process p now => exact ⟨_, _, rfl⟩
  | prune now timeout => exact ⟨_, _, rfl⟩
  | reset => exact ⟨_, _, rfl⟩

/-- PROCESS's answer and table, once the packet's session is at hand: one of four cases (R195 to R199). -/
theorem deliver_cases (p : Packet) (v : Session) (t : Table) :
    (v.totalChunks.toNat ≤ p.chunkIndex.toNat ∧ deliver p v t = (⟨.indexBeyondSession, .absent⟩, t)) ∨
    (p.chunkIndex.toNat < v.totalChunks.toNat ∧ occupied v p.chunkIndex.toNat = true ∧
      deliver p v t = (⟨.duplicate, .absent⟩, t)) ∨
    (p.chunkIndex.toNat < v.totalChunks.toNat ∧ occupied v p.chunkIndex.toNat = false ∧
      v.receivedCount + 1 = v.totalChunks ∧
      deliver p v t = (⟨.complete, .data (reassemble (storePacket v p).slots)⟩, remove p.messageId t)) ∨
    (p.chunkIndex.toNat < v.totalChunks.toNat ∧ occupied v p.chunkIndex.toNat = false ∧
      v.receivedCount + 1 ≠ v.totalChunks ∧
      deliver p v t = (⟨.stored, .absent⟩, insert p.messageId (storePacket v p) t)) := by
  by_cases h1 : v.totalChunks.toNat ≤ p.chunkIndex.toNat
  · exact .inl ⟨h1, by rw [deliver, if_pos h1]⟩
  · by_cases h2 : occupied v p.chunkIndex.toNat = true
    · exact .inr (.inl ⟨by omega, h2, by rw [deliver, if_neg h1, if_pos h2]⟩)
    · have hf : occupied v p.chunkIndex.toNat = false := by simpa using h2
      by_cases h3 : v.receivedCount + 1 = v.totalChunks
      · exact .inr (.inr (.inl ⟨by omega, hf, h3, by rw [deliver, if_neg h1, if_neg h2]; exact if_pos h3⟩))
      · exact .inr (.inr (.inr ⟨by omega, hf, h3, by rw [deliver, if_neg h1, if_neg h2]; exact if_neg h3⟩))

/-- PROCESS as a whole (R191): a packet that fails validation, a new message over the cap, or a delivery to the session the
packet's id has or now gets. -/
theorem processPacket_cases (c : Params) (p : Packet) (nowMs : Time) (t : Table) :
    (validate c p ≠ .ok ∧ processPacket c p nowMs t = (⟨validate c p, .absent⟩, t)) ∨
    (validate c p = .ok ∧ lookup p.messageId t = none ∧ c.maxSessions ≤ t.length ∧
      processPacket c p nowMs t = (⟨.capacityExceeded, .absent⟩, t)) ∨
    (validate c p = .ok ∧ lookup p.messageId t = none ∧ t.length < c.maxSessions ∧
      processPacket c p nowMs t = deliver p (newSession p nowMs) t) ∨
    (∃ v, validate c p = .ok ∧ lookup p.messageId t = some v ∧ processPacket c p nowMs t = deliver p v t) := by
  by_cases h : validate c p = .ok
  · cases hl : lookup p.messageId t with
    | some v => exact .inr (.inr (.inr ⟨v, h, rfl, by simp [processPacket, h, hl]⟩))
    | none =>
      by_cases hc : c.maxSessions ≤ t.length
      · exact .inr (.inl ⟨h, rfl, hc, by simp [processPacket, h, hl, hc]⟩)
      · exact .inr (.inr (.inl ⟨h, rfl, by omega, by simp [processPacket, h, hl, hc]⟩))
  · exact .inl ⟨h, by simp [processPacket, h]⟩

/-- What PROCESS does to the state. -/
theorem exec_process_eq (p : Packet) (nowMs : Time) (s : State) :
    exec (.process p nowMs) s = .next
      { s with sessions := (processPacket s.params p nowMs s.sessions).2,
               responses := s.responses ++ [(processPacket s.params p nowMs s.sessions).1] } := rfl

/-- What PRUNE does to the state. -/
theorem exec_prune_eq (nowMs : Time) (timeoutMs : U32) (s : State) :
    exec (.prune nowMs timeoutMs) s = .next
      { s with sessions := s.sessions.filter (fun e => !stale nowMs timeoutMs e.2),
               responses := s.responses ++ [⟨.ok, .absent⟩] } := rfl

/-- What RESET does to the state. -/
theorem exec_reset_eq (s : State) :
    exec .reset s = .next { s with sessions := [], responses := s.responses ++ [⟨.ok, .absent⟩] } := rfl

/-- What issuing one command as a host agent gives: its response, and the state it leaves. -/
theorem issue_of_exec {i : Instr} {s t : State} {r : Response} (h : exec i s = .next t)
    (hr : t.responses = s.responses ++ [r]) : issue i s = some (r, t) := by
  simp [issue, h, hr]

end Sys2Proof.Machine
end

