-- ==== Sys2Proof/Laws/Packet.lean ====
section
/-! SUPPORT. What the tests on a packet and on a session say in unsigned numbers, the CRC register's
injectivity, and what the validator, reconstruction and the chunk count can give. -/

namespace Sys2Proof.Machine

/-- Bit 0 of the flags byte (R64). -/
theorem somFlag_iff (p : Packet) : somFlag p = true ↔ p.flags.toNat % 2 = 1 := by
  simp [somFlag, BitVec.getLsbD, Nat.testBit_zero]

/-- Bit 1 of the flags byte (R64). -/
theorem eomFlag_iff (p : Packet) : eomFlag p = true ↔ p.flags.toNat / 2 % 2 = 1 := by
  simp [eomFlag, BitVec.getLsbD, Nat.testBit_succ, Nat.testBit_zero]

/-- The final chunk, where the u8 difference does not wrap (R120). -/
theorem isFinalChunk_iff {p : Packet} (h : 1 ≤ p.totalChunks.toNat) :
    isFinalChunk p = true ↔ p.chunkIndex.toNat + 1 = p.totalChunks.toNat := by
  have := p.totalChunks.isLt
  have := p.chunkIndex.isLt
  simp only [isFinalChunk, beq_iff_eq]
  rw [← BitVec.toNat_inj, BitVec.toNat_sub]
  simp
  omega

/-- The two bytes of a little-endian read as a number (R14, R41). -/
theorem memRead16_toNat (b : Bytes) (off : Nat) :
    (memRead16 b off).toNat = (b.getD off 0).toNat + 256 * (b.getD (off + 1) 0).toNat := by
  have h1 := (b.getD off 0).isLt
  have h2 := (b.getD (off + 1) 0).isLt
  simp only [memRead16, byteAt]
  rw [BitVec.toNat_or, BitVec.toNat_shiftLeft, BitVec.toNat_setWidth, BitVec.toNat_setWidth,
    Nat.mod_eq_of_lt (by omega : (b.getD off 0).toNat < 2 ^ 16),
    Nat.mod_eq_of_lt (by omega : (b.getD (off + 1) 0).toNat < 2 ^ 16),
    Nat.mod_eq_of_lt (by rw [Nat.shiftLeft_eq]; omega), Nat.or_comm, ← Nat.shiftLeft_add_eq_or_of_lt h1,
    Nat.shiftLeft_eq]
  omega

/-- Age as a number: the difference mod 2^32 (R202). -/
theorem age_toNat (v : Session) (nowMs : Time) :
    (age v nowMs).toNat = (nowMs.toNat + 2 ^ 32 - v.firstReceivedTimeMs.toNat) % 2 ^ 32 := by
  have := v.firstReceivedTimeMs.isLt
  rw [age, BitVec.toNat_sub]
  congr 1
  omega

/-- The eviction test: the u32 age is greater than the timeout, unsigned (R201, R202). -/
theorem stale_iff (nowMs : Time) (timeoutMs : U32) (v : Session) :
    stale nowMs timeoutMs v = true ↔ timeoutMs.toNat < (nowMs - v.firstReceivedTimeMs).toNat := by
  unfold stale
  rw [decide_eq_true_iff]
  rfl

/-- An unoccupied slot inside the array is empty. -/
theorem slot_of_not_occupied {v : Session} {i : Nat} (hl : i < v.slots.length) (h : occupied v i = false) :
    v.slots[i]? = some none := by
  simp only [occupied, List.getElem?_eq_getElem hl, Option.getD_some] at h ⊢
  cases hx : v.slots[i] with
  | none => rfl
  | some q => rw [hx] at h; cases h

/-- Filling an empty slot raises the count of occupied slots by one (R197). -/
theorem occupiedCount_set {l : List (Option Packet)} {i : Nat} (h : l[i]? = some none) (p : Packet) :
    occupiedCount (l.set i (some p)) = occupiedCount l + 1 := by
  induction l generalizing i with
  | nil => simp at h
  | cons a l ih =>
    cases i with
    | zero => simp at h; subst h; simp [occupiedCount]
    | succ i =>
      have := ih (i := i) (by simpa using h)
      simp only [occupiedCount, List.set_cons_succ, List.countP_cons] at this ⊢
      omega

/-- One shift of the register loses nothing: bit 15 after it tells whether the polynomial was XORed in (R100). -/
theorem crcShift_injective : Function.Injective crcShift := by
  have back : ∀ x : U16, (if (crcShift x).getLsbD 15 then ((crcShift x ^^^ 0xA001#16) <<< 1) ||| 1#16
      else crcShift x <<< 1) = x := by
    intro x
    unfold crcShift
    by_cases h0 : x.getLsbD 0 = true
    · simp only [h0, if_true]
      rw [if_pos (by simp), show ((x >>> 1 ^^^ 0xA001#16) ^^^ 0xA001#16) = x >>> 1 by simp]
      ext i hi
      by_cases hi0 : i = 0
      · subst hi0
        simp [← BitVec.getLsbD_eq_getElem, h0]
      · simp [hi0, show 1 + (i - 1) = i by omega, BitVec.getLsbD_eq_getElem hi]
    · rw [if_neg h0, if_neg (by simp)]
      ext i hi
      by_cases hi0 : i = 0
      · subst hi0
        simpa [← BitVec.getLsbD_eq_getElem] using h0
      · simp [hi0, show 1 + (i - 1) = i by omega, BitVec.getLsbD_eq_getElem hi]
  intro a b h
  rw [← back a, ← back b, h]

/-- Eight shifts lose nothing either. -/
theorem crcShifts_injective : Function.Injective (Nat.repeat crcShift 8) := by
  intro a b h
  simp only [Nat.repeat] at h
  iterate 8 replace h := crcShift_injective h
  exact h

/-- Two registers that one byte takes to the same register are the same (R100). -/
theorem crcByte_register_injective (b : Byte) : Function.Injective (crcByte · b) := by
  intro a c h
  simpa using crcShifts_injective h

/-- Two bytes that take one register to the same register are the same (R100). -/
theorem crcByte_byte_injective (r : U16) : Function.Injective (crcByte r) := by
  intro a c h
  have h2 : a.setWidth 16 = c.setWidth 16 := by simpa using crcShifts_injective h
  have h3 := congrArg BitVec.toNat h2
  simp only [BitVec.toNat_setWidth] at h3
  exact BitVec.eq_of_toNat_eq (by omega)

/-- All that the validator can answer (R120). -/
theorem validate_ok_or_code (c : Params) (p : Packet) : validate c p = .ok ∨ validate c p ∈ validationCodes := by
  unfold validate
  repeat' split
  all_goals simp [validationCodes]

/-- Reconstruction is the valid bytes of the slots that hold a packet, in slot order (R198). -/
theorem reassemble_eq (l : List (Option Packet)) :
    reassemble l = (l.filterMap fun slot => slot).flatMap fun q => q.payload.take q.payloadSize.toNat := by
  induction l with
  | nil => rfl
  | cons a l ih =>
    cases a with
    | none => simpa [reassemble] using ih
    | some q =>
      simp only [reassemble, List.flatMap_cons] at ih ⊢
      rw [ih]
      simp [extract, validPayload]

/-- The chunk count of a message that fits (R161): from 1 to 255, the last chunk not empty and not too small. -/
theorem chunkCount_bounds (c : Params) (len : Nat) (h : 1 ≤ len) (hm : len ≤ 255 * c.N) :
    1 ≤ chunkCount c len ∧ chunkCount c len ≤ 255 ∧ (chunkCount c len - 1) * c.N < len ∧
      len ≤ chunkCount c len * c.N := by
  have hp := c.N_pos
  have e : chunkCount c len = (len - 1) / c.N + 1 := by
    rw [chunkCount, show len + c.N - 1 = (len - 1) + c.N by omega, Nat.add_div_right _ hp]
  have a := Nat.div_mul_le_self (len - 1) c.N
  have b := Nat.lt_div_mul_add hp (a := len - 1)
  have d : (len - 1) / c.N < 255 := by rw [Nat.div_lt_iff_lt_mul hp]; omega
  rw [e, Nat.add_sub_cancel, Nat.add_mul, Nat.one_mul]
  exact ⟨Nat.le_add_left _ _, d, by omega, by omega⟩

end Sys2Proof.Machine
end

