-- ==== Sys2Proof/Machine/Asm.lean ====
section
/-! DEFINITION. The assembler syntax (30_encoding.md R72): what a written command stands for, and how a command and its
response are written out. The spelling of what R72 leaves free (capitals of hexadecimal digits) is DESIGN CHOICE, log entry 12. -/

namespace Sys2Proof.Machine

/-- An operand as it is written (R72); a name stands for an earlier result. -/
inductive OperandLit where
  | bytes (b : BytesLit)
  | u16 (v : U16)
  | u32 (v : U32)
  | packet (l : PacketLit)
  | name (x : String)
  deriving DecidableEq, Repr

/-- A written command, `MNEMONIC operand, operand` (R72). -/
structure AsmLine where
  mnemonic : Mnemonic
  operands : List OperandLit
  deriving DecidableEq, Repr

/-- The value of a written operand; `names` binds names to earlier results, the latest binding first. -/
def valueOfLit (c : Params) (names : List (String × Value)) : OperandLit → Option Value
  | .bytes b => some (.bytes (bytesOfLit b))
  | .u16 v => some (.u16 v)
  | .u32 v => some (.u32 v)
  | .packet l => some (.packet (packetOfLit c l))
  | .name x => names.lookup x

/-- The opcode byte of a mnemonic (R68). -/
def opcodeOf (m : Mnemonic) : Option Byte := (opcodeTable.find? (·.mnemonic == m)).map (·.pattern)

/-- The command a written line stands for. -/
def commandOfLine (c : Params) (names : List (String × Value)) (l : AsmLine) : Option Command :=
  (opcodeOf l.mnemonic).bind fun op =>
    (l.operands.mapM (valueOfLit c names)).map fun vs => ⟨op, vs⟩

/-- "`p0` for the first packet of a SPLIT" (R72): the j-th packet of a response's list. -/
def packetOfResult (r : Result) (j : Nat) : Option Packet :=
  match r with
  | .packets ps => ps[j]?
  | .packet q => if j = 0 then some q else none
  | _ => none

/-- The mnemonics of R68. -/
def mnemonicName : Mnemonic → String
  | .crc16 => "CRC16"
  | .finalize => "FINALIZE"
  | .verify => "VERIFY"
  | .validate => "VALIDATE"
  | .encode => "ENCODE"
  | .parse => "PARSE"
  | .split => "SPLIT"
  | .extract => "EXTRACT"
  | .process => "PROCESS"
  | .prune => "PRUNE"
  | .reset => "RESET"

/-- The status names of R70. -/
def statusName : Status → String
  | .ok => "OK"
  | .invalidProtocolVersion => "InvalidProtocolVersion"
  | .invalidMessageId => "InvalidMessageId"
  | .invalidTotalChunks => "InvalidTotalChunks"
  | .invalidChunkIndex => "InvalidChunkIndex"
  | .invalidPayloadSize => "InvalidPayloadSize"
  | .invalidSomFlag => "InvalidSomFlag"
  | .invalidEomFlag => "InvalidEomFlag"
  | .crcMismatch => "CrcMismatch"
  | .transportSizeError => "TransportSizeError"
  | .complete => "Complete"
  | .stored => "Stored"
  | .duplicate => "Duplicate"
  | .capacityExceeded => "CapacityExceeded"
  | .indexBeyondSession => "IndexBeyondSession"
  | .messageTooLong => "MessageTooLong"
  | .illegalCommand => "IllegalCommand"

/-- `n` hexadecimal digits of `v`, most significant first. -/
def hexDigits (n v : Nat) : List Char :=
  (List.range n).reverse.map fun k => Nat.digitChar (v / 16 ^ k % 16)

/-- Text joined by a separator. -/
def joined (sep : String) (parts : List String) : String := sep.intercalate parts

/-- A `0x` numeral of `n` digits (R72). -/
def writeHex (n v : Nat) : String := "0x" ++ String.ofList (hexDigits n v)

/-- A byte sequence, `x"48 69"` (R72). -/
def writeBytes (b : Bytes) : String :=
  "x\"" ++ joined " " (b.map fun v => String.ofList (hexDigits 2 v.toNat)) ++ "\""

/-- A packet, `pkt` and its fields in braces (R72), the whole payload slot written out. -/
def writePacket (p : Packet) : String :=
  "pkt" ++ String.singleton (Char.ofNat 0x7B) ++ joined ", "
    [ "id=" ++ writeHex 4 p.messageId.toNat
    , "tot=" ++ p.totalChunks.toNat.repr
    , "idx=" ++ p.chunkIndex.toNat.repr
    , "size=" ++ p.payloadSize.toNat.repr
    , "flags=" ++ writeHex 2 p.flags.toNat
    , "ver=" ++ p.protocolVersion.toNat.repr
    , "payload=" ++ writeBytes p.payload
    , "crc=" ++ writeHex 4 p.checksum.toNat ] ++ String.singleton (Char.ofNat 0x7D)

/-- An operand value written out: "A u16 or u32 is a decimal or `0x` numeral" (R72). -/
def writeValue : Value → String
  | .packet p => writePacket p
  | .bytes b => writeBytes b
  | .u16 v => writeHex 4 v.toNat
  | .u32 v => v.toNat.repr

/-- The mnemonic and the operands, separated by commas (R72); the opcode number where it selects no operation. -/
def writeCommand (cmd : Command) : String :=
  let head :=
    match decodeOpcode cmd.opcode with
    | some m => mnemonicName m
    | none => writeHex 2 cmd.opcode.toNat
  match cmd.operands with
  | [] => head
  | vs => head ++ " " ++ joined ", " (vs.map writeValue)

/-- A response's result as it stands after the status (R72); nothing where there is none. -/
def writeResult : Result → List String
  | .absent => []
  | .crc v => [writeHex 4 v.toNat]
  | .packet q => [writePacket q]
  | .matched m => [m.toNat.repr]
  | .image w => [writeBytes w]
  | .packets ps => ["[" ++ joined ", " (ps.map writePacket) ++ "]"]
  | .data b => [writeBytes b]

/-- A command and its response, "written after `->`, as in `PROCESS p2, 100 -> Stored`" (R72). -/
def writeExchange (cmd : Command) (r : Response) : String :=
  writeCommand cmd ++ " -> " ++ joined ", " (statusName r.status :: writeResult r.result)

end Sys2Proof.Machine
end

