-- ==== Sys2Proof/Tests/Slice0.lean ====
section
/-! SUPPORT. Tests of single steps. Every expected value stands in spec/95_test_vectors.md (V1 to V20, L3-1 to L3-5) or is the
rule's own; the packets of section 4 there are taken at P = 13, N = 4, P_MAX_SESSIONS = 2. -/

-- Theorems one after the other: in parallel, so many kernel evaluations wait on each other in too many threads.
set_option Elab.async false

namespace Sys2Proof.Tests

open Sys2Proof Sys2Proof.Machine

/-- P = 13, N = 4, P_MAX_SESSIONS = 2, as the programs of 95_test_vectors.md section 4 have them. -/
def c13 : Params := ⟨13, 2, by decide, by decide, by decide⟩

/-- P = 255, N = 246. -/
def c255 : Params := ⟨255, 2, by decide, by decide, by decide⟩

/-- A state with the given parameters and table, nothing issued and nothing returned. -/
def stateOf (c : Params) (t : Table) : State := ⟨c, t, [], []⟩

/-- A packet written as its wire image at P = 13. -/
def ofImage (w : Bytes) : Packet := wireDecode c13 w

/-- The last response of a step that went on. -/
def answer (o : Host.Outcome State Fault Refusal) : Option Response :=
  match o with | .next s => s.responses.getLast? | _ => none

/-- The table after a step that went on. -/
def tableAfter (o : Host.Outcome State Fault Refusal) : Option Table :=
  match o with | .next s => some s.sessions | _ => none

/-- "0123456789", id 0x0033 (L3-3). -/
def D0 : Packet := ofImage [0x33, 0x00, 0x03, 0x00, 0x04, 0x01, 0x01, 0x30, 0x31, 0x32, 0x33, 0x90, 0x3b]
def D1 : Packet := ofImage [0x33, 0x00, 0x03, 0x01, 0x04, 0x00, 0x01, 0x34, 0x35, 0x36, 0x37, 0x13, 0xd4]
def D2 : Packet := ofImage [0x33, 0x00, 0x03, 0x02, 0x02, 0x02, 0x01, 0x38, 0x39, 0xff, 0xff, 0x82, 0x89]
/-- D0 with a wrong checksum, a valid packet beyond D0's session, a valid other chunk 0 and a single-chunk message (V16). -/
def D0x : Packet := ofImage [0x33, 0x00, 0x03, 0x00, 0x04, 0x01, 0x01, 0x30, 0x31, 0x32, 0x33, 0x6f, 0x3b]
def F : Packet := ofImage [0x33, 0x00, 0x05, 0x04, 0x01, 0x02, 0x01, 0x5a, 0xff, 0xff, 0xff, 0xd3, 0x08]
def K : Packet := ofImage [0x33, 0x00, 0x03, 0x00, 0x04, 0x01, 0x01, 0x41, 0x42, 0x43, 0x44, 0x1e, 0xaa]
def J : Packet := ofImage [0x66, 0x00, 0x01, 0x00, 0x03, 0x03, 0x01, 0x78, 0x79, 0x7a, 0xff, 0x35, 0xcf]
/-- The first chunks of messages 0x000A and 0x000B (L3-2), and the mismatched pair of id 0x0044 (L3-4). -/
def A0 : Packet := ofImage [0x0a, 0x00, 0x02, 0x00, 0x04, 0x01, 0x01, 0x61, 0x62, 0x63, 0x64, 0xd0, 0xb4]
def B0 : Packet := ofImage [0x0b, 0x00, 0x02, 0x00, 0x04, 0x01, 0x01, 0x69, 0x6a, 0x6b, 0x6c, 0x51, 0xec]
def G0 : Packet := ofImage [0x44, 0x00, 0x02, 0x00, 0x04, 0x01, 0x01, 0x57, 0x58, 0x59, 0x5a, 0x0d, 0x68]
def G1 : Packet := ofImage [0x44, 0x00, 0x03, 0x01, 0x04, 0x00, 0x01, 0x77, 0x78, 0x79, 0x7a, 0xd2, 0xf7]

/-- "Hi" of 95_test_vectors.md section 0, at N = 246. -/
def hi : Packet :=
  packetOfLit c255 ⟨0x1234, 1, 0, 2, 0x03, 1, [0x48, 0x69], true, some 0x4E22⟩

/-- The session of id 0x0033 with D0 stored at time 0, and with D0 and D2. -/
def oneStored : Table := [(0x33, ⟨3, 0, 1, [some D0, none, none]⟩)]
def twoStored : Table := [(0x33, ⟨3, 0, 2, [some D0, none, some D2]⟩)]

/-- The table of L3-2 after its step 2: two sessions, the cap of 2 reached. -/
def full : Table := [(0x0A, ⟨2, 1000, 1, [some A0, none]⟩), (0x0B, ⟨2, 1500, 1, [some B0, none]⟩)]

/-! ## Well-formedness: a packet whose slot is not N bytes is refused for every command that takes one (R15, R71). -/

def misfit : Packet := { D0 with payload := [0x30, 0x31, 0x32] }

theorem test_illformed_crc16 : (Instr.crc16 misfit).wf c13 = false := by decide
theorem test_illformed_finalize : (Instr.finalize misfit).wf c13 = false := by decide
theorem test_illformed_verify : (Instr.verify misfit).wf c13 = false := by decide
theorem test_illformed_validate : (Instr.validate misfit).wf c13 = false := by decide
theorem test_illformed_encode : (Instr.encode misfit).wf c13 = false := by decide
theorem test_illformed_extract : (Instr.extract misfit).wf c13 = false := by decide
theorem test_illformed_process : (Instr.process misfit 0).wf c13 = false := by decide
theorem test_wellformed_packet : (Instr.crc16 D0).wf c13 = true := by decide

/-- The port refuses the misfit by name, and operands of other types too. -/
theorem test_port_refuses :
    (decode c13 ⟨0x01, [.packet misfit]⟩ = .error .payloadNotSlotSize) ∧
      (decode c13 ⟨0x01, [.u16 3]⟩ = .error .operandsNotOfCommand) := ⟨rfl, rfl⟩

/-! ## Decoding: the opcode bytes of R68, written out bit by bit. -/

theorem test_decode_crc16 : decodeOpcode 0b00000001#8 = some .crc16 := by decide
theorem test_decode_finalize : decodeOpcode 0b00000010#8 = some .finalize := by decide
theorem test_decode_verify : decodeOpcode 0b00000011#8 = some .verify := by decide
theorem test_decode_validate : decodeOpcode 0b00000100#8 = some .validate := by decide
theorem test_decode_encode : decodeOpcode 0b00000101#8 = some .encode := by decide
theorem test_decode_parse : decodeOpcode 0b00000110#8 = some .parse := by decide
theorem test_decode_split : decodeOpcode 0b00000111#8 = some .split := by decide
theorem test_decode_extract : decodeOpcode 0b00001000#8 = some .extract := by decide
theorem test_decode_process : decodeOpcode 0b00001001#8 = some .process := by decide
theorem test_decode_prune : decodeOpcode 0b00001010#8 = some .prune := by decide
theorem test_decode_reset : decodeOpcode 0b00001011#8 = some .reset := by decide

/-- Every other opcode value selects no operation (R69). -/
theorem test_decode_illegal : ∀ op : Byte, decodeOpcode op = none ↔ op.toNat = 0 ∨ 0x0C ≤ op.toNat := by decide +kernel

/-- No opcode byte is selected by two rows. -/
theorem test_rows_disjoint : opcodeTable.Pairwise fun a b => a.pattern &&& b.mask ≠ b.pattern &&& a.mask := by decide

/-- A table word gives the command of its own opcode, and no other word gives any. -/
theorem test_table_words : ∀ w : Fin 16, ((decodeTableWord 8 w).map fun i => (encode i).opcode.toNat) =
    if 1 ≤ w.val ∧ w.val ≤ 0x0B then some w.val else none := by decide +kernel

/-- The first step after reset runs the command of each table word (operands zero): the statuses its rule gives. -/
theorem test_first_step_after_reset :
    ((List.range 13).map fun w => (answer (step (State.reset.withFetchWord 8 w))).map (·.status)) =
      [some .illegalCommand, some .ok, some .ok, some .ok, some .invalidProtocolVersion, some .ok,
        some .transportSizeError, some .ok, some .ok, some .invalidProtocolVersion, some .ok, some .ok,
        some .illegalCommand] := by decide +kernel

/-! ## The checksum engine -/

/-- V1: "123456789". -/
theorem test_crc_check_value :
    Machine.crc16 [0x31, 0x32, 0x33, 0x34, 0x35, 0x36, 0x37, 0x38, 0x39] = 0x4B37 := by decide +kernel

/-- V1: the empty sequence, and 00, 01, FF. -/
theorem test_crc_short : Machine.crc16 [] = 0xFFFF ∧ Machine.crc16 [0x00] = 0x40BF ∧ Machine.crc16 [0x01] = 0x807E ∧
    Machine.crc16 [0xFF] = 0x00FF := by decide +kernel

/-- V10: CRC16 of Hi, whatever its stored checksum. -/
theorem test_crc16_hi : answer (exec (.crc16 { hi with checksum := 0 }) (stateOf c255 [])) =
    some ⟨.ok, .crc 0x4E22⟩ := by decide +kernel

/-- V10: size 247 runs past the slot. -/
theorem test_crc16_oversized : answer (exec (.crc16 { hi with payloadSize := 247 }) (stateOf c255 [])) =
    some ⟨.invalidPayloadSize, .absent⟩ := by decide +kernel

/-- V10: FINALIZE of Hi with version 99 writes 0x9083 and keeps the rest. -/
theorem test_finalize_version_99 :
    answer (exec (.finalize { hi with protocolVersion := 99, checksum := 0 }) (stateOf c255 [])) =
      some ⟨.ok, .packet { hi with protocolVersion := 99, checksum := 0x9083 }⟩ := by decide +kernel

/-- V10: VERIFY of a byte-swapped checksum is a mismatch; of an id of 0 with its own checksum a match. -/
theorem test_verify_mismatch : answer (exec (.verify { hi with checksum := 0x224E }) (stateOf c255 [])) =
    some ⟨.ok, .matched 0⟩ := by decide +kernel
theorem test_verify_runs_no_stage :
    answer (exec (.verify { hi with messageId := 0, checksum := 0x5AC4 }) (stateOf c255 [])) =
      some ⟨.ok, .matched 1⟩ := by decide +kernel

/-! ## The validator (V11) -/

/-- Rows of V11 that stop at stages 1 to 5, and that pass. -/
theorem test_validate_early_stages :
    [ { hi with protocolVersion := 99, checksum := 0x9083 }
    , { hi with protocolVersion := 2, messageId := 0 }
    , { hi with messageId := 0, totalChunks := 0, checksum := 0x9AD4 }
    , { hi with totalChunks := 0, checksum := 0x8E32 }
    , { hi with totalChunks := 255, chunkIndex := 255, checksum := 0x8E29 }
    , { hi with chunkIndex := 5, payloadSize := 250, flags := 0x00 }
    , { hi with payloadSize := 247 }
    , { hi with payloadSize := 250, flags := 0x00 }
    , { hi with payloadSize := 0, checksum := 0x4191 }
    , { hi with messageId := 0xFFFF, checksum := 0xAACE }
    , { hi with flags := 0xFB, checksum := 0x2E13 } ].map (validate c255) =
    [.invalidProtocolVersion, .invalidProtocolVersion, .invalidMessageId, .invalidTotalChunks, .invalidChunkIndex,
      .invalidChunkIndex, .invalidPayloadSize, .invalidPayloadSize, .ok, .ok, .ok] := by decide +kernel

/-- Rows of V11 that stop at stages 6 to 9, and that pass. -/
theorem test_validate_late_stages :
    [ { hi with totalChunks := 2, flags := 0x01, checksum := 0xF610 }
    , { hi with flags := 0x02, checksum := 0xB223 }
    , { hi with flags := 0x00, checksum := 0x0A22 }
    , { hi with totalChunks := 2, chunkIndex := 1, checksum := 0x9F10 }
    , { hi with flags := 0x01, checksum := 0xF623 }
    , { hi with totalChunks := 2, chunkIndex := 1, flags := 0x00, checksum := 0xDB10 }
    , { hi with checksum := 0x4E23 }
    , { hi with totalChunks := 2, chunkIndex := 1, flags := 0x02, checksum := 0x6311 }
    , hi ].map (validate c255) =
    [.invalidPayloadSize, .invalidSomFlag, .invalidSomFlag, .invalidSomFlag, .invalidEomFlag, .invalidEomFlag,
      .crcMismatch, .ok, .ok] := by decide +kernel

/-! ## The wire encoder and the parser (V12, V13, L3-3) -/

/-- V12: ENCODE of the packet of id 0xFFFF at N = 4. -/
theorem test_encode_full_slot :
    answer (exec (.encode ⟨0xFFFF, 1, 0, 4, 0x03, 1, [1, 2, 3, 4], 0xACD4⟩) (stateOf c13 [])) =
      some ⟨.ok, .image [0xff, 0xff, 0x01, 0x00, 0x04, 0x03, 0x01, 0x01, 0x02, 0x03, 0x04, 0xd4, 0xac]⟩ := by
  decide +kernel

/-- V12: ENCODE checks nothing. -/
theorem test_encode_empty_chunk :
    answer (exec (.encode ⟨1, 1, 0, 0, 0x03, 1, [0xff, 0xff, 0xff, 0xff], 0x30F7⟩) (stateOf c13 [])) =
      some ⟨.ok, .image [0x01, 0x00, 0x01, 0x00, 0x00, 0x03, 0x01, 0xff, 0xff, 0xff, 0xff, 0xf7, 0x30]⟩ := by
  decide +kernel

/-- L3-3 step 4: 3 bytes too many; the packet has the fields of D0. -/
theorem test_parse_excess :
    answer (exec (.parse [0x33, 0x00, 0x03, 0x00, 0x04, 0x01, 0x01, 0x30, 0x31, 0x32, 0x33, 0x90, 0x3b, 1, 2, 3])
      (stateOf c13 [])) =
      some ⟨.ok, .packet ⟨0x0033, 3, 0, 4, 0x01, 1, [0x30, 0x31, 0x32, 0x33], 0x3B90⟩⟩ := by decide +kernel

/-- L3-3 steps 3 and 2: 12 bytes; a payload bit flipped. -/
theorem test_parse_failures :
    answer (exec (.parse [0x33, 0x00, 0x03, 0x00, 0x04, 0x01, 0x01, 0x30, 0x31, 0x32, 0x33, 0x90])
      (stateOf c13 [])) = some ⟨.transportSizeError, .absent⟩ ∧
    answer (exec (.parse [0x33, 0x00, 0x03, 0x01, 0x04, 0x00, 0x01, 0x34, 0x34, 0x36, 0x37, 0x13, 0xd4])
      (stateOf c13 [])) = some ⟨.crcMismatch, .absent⟩ := by decide +kernel

/-! ## The segmenter and the extractor (V14, V15) -/

/-- V14: five bytes at N = 4. -/
theorem test_split_two_chunks :
    answer (exec (.split [1, 2, 3, 4, 5] 0xFFFF) (stateOf c13 [])) = some ⟨.ok, .packets
      [ ofImage [0xff, 0xff, 0x02, 0x00, 0x04, 0x01, 0x01, 0x01, 0x02, 0x03, 0x04, 0xc1, 0xbe]
      , ofImage [0xff, 0xff, 0x02, 0x01, 0x01, 0x02, 0x01, 0x05, 0xff, 0xff, 0xff, 0x5d, 0x8d] ]⟩ := by decide +kernel

/-- V14: one byte too many for 255 chunks. -/
theorem test_split_too_long : answer (exec (.split (List.replicate 1021 0) 1) (stateOf c13 [])) =
    some ⟨.messageTooLong, .absent⟩ := by decide +kernel

/-- V15: padding is not returned; an oversized packet gives no bytes. -/
theorem test_extract_no_padding :
    answer (exec (.extract { D2 with payload := [0x38, 0x39, 0xa5, 0xff] }) (stateOf c13 [])) =
      some ⟨.ok, .data [0x38, 0x39]⟩ := by decide +kernel
theorem test_extract_oversized : answer (exec (.extract { hi with payloadSize := 247 }) (stateOf c255 [])) =
    some ⟨.invalidPayloadSize, .absent⟩ := by decide +kernel

/-! ## The reassembler (V16, V17, V18, L3-3) -/

/-- L3-3 step 10: D1 completes "0123456789" and the session goes. -/
theorem test_process_completes :
    answer (exec (.process D1 4) (stateOf c13 twoStored)) =
      some ⟨.complete, .data [0x30, 0x31, 0x32, 0x33, 0x34, 0x35, 0x36, 0x37, 0x38, 0x39]⟩ ∧
    tableAfter (exec (.process D1 4) (stateOf c13 twoStored)) = some [] := by decide +kernel

/-- V16: an occupied slot keeps the first packet; an index beyond the session; the cap. -/
theorem test_process_refusals :
    (answer (exec (.process K 1) (stateOf c13 oneStored)), tableAfter (exec (.process K 1) (stateOf c13 oneStored))) =
      (some ⟨.duplicate, .absent⟩, some oneStored) ∧
    answer (exec (.process F 3) (stateOf c13 twoStored)) = some ⟨.indexBeyondSession, .absent⟩ ∧
    answer (exec (.process J 5) (stateOf c13 full)) = some ⟨.capacityExceeded, .absent⟩ := by decide +kernel

/-- V17: the age 0x110 runs across the clock's wrap. -/
theorem test_prune_wrap :
    (tableAfter (exec (.prune 0x10 0x110) (stateOf c13 [(0x0A, ⟨2, 0xFFFFFF00, 1, [some A0, none]⟩)]))).map List.length =
      some 1 ∧
    tableAfter (exec (.prune 0x10 0x10F) (stateOf c13 [(0x0A, ⟨2, 0xFFFFFF00, 1, [some A0, none]⟩)])) = some [] := by
  decide +kernel

/-- L3-2 steps 4 and 5: the test is strict, and each session is tested alone. -/
theorem test_prune_strict :
    (tableAfter (exec (.prune 2000 1000) (stateOf c13 full))).map List.length = some 2 ∧
    (tableAfter (exec (.prune 2001 1000) (stateOf c13 full))).map (·.map (·.1)) = some [0x0B] := by decide +kernel

/-- V18: RESET empties the table and answers OK. -/
theorem test_reset : (answer (exec .reset (stateOf c13 full)), tableAfter (exec .reset (stateOf c13 full))) =
    (some ⟨.ok, .absent⟩, some []) := by decide +kernel

/-! ## Host-side sequences and written commands (R72, R73) -/

/-- L3-1 steps 5 and 6 as one RECEIVE: "HELLOWORLD!", its last chunk first. -/
theorem test_receive :
    ((receive [0x02, 0x01, 0x03, 0x02, 0x03, 0x02, 0x01, 0x4c, 0x44, 0x21, 0xff, 0xf5, 0x48] 100
      (stateOf c13 [])).map (·.1)) = some ⟨.stored, .absent⟩ := by decide +kernel

/-- L3-1 steps 1 to 4 as one SEND: the three images, in ascending order. -/
theorem test_send :
    ((send [0x48, 0x45, 0x4C, 0x4C, 0x4F, 0x57, 0x4F, 0x52, 0x4C, 0x44, 0x21] 0x0102 (stateOf c13 [])).map (·.2.1)) =
      some [ [0x02, 0x01, 0x03, 0x00, 0x04, 0x01, 0x01, 0x48, 0x45, 0x4c, 0x4c, 0x02, 0xf8]
           , [0x02, 0x01, 0x03, 0x01, 0x04, 0x00, 0x01, 0x4f, 0x57, 0x4f, 0x52, 0xe3, 0x6c]
           , [0x02, 0x01, 0x03, 0x02, 0x03, 0x02, 0x01, 0x4c, 0x44, 0x21, 0xff, 0xf5, 0x48] ] := by decide +kernel

/-- A written line stands for its command (R72), here with a literal and with a name. -/
theorem test_written_line :
    commandOfLine c13 [("p0", .packet D0)] ⟨.process, [.name "p0", .u32 100]⟩ =
      some ⟨0x09, [.packet D0, .u32 100]⟩ := by decide +kernel

/-- "written after `->`" (R72). -/
theorem test_written_exchange : writeExchange ⟨0x0A, [.u32 2000, .u32 1000]⟩ ⟨.ok, .absent⟩ = "PRUNE 2000, 1000 -> OK" := by
  decide +kernel

/-! ## Witnesses: for every statement with hypotheses, states and operands that meet all of them together -/

theorem valid_D0 : validate c13 D0 = .ok := by decide +kernel
theorem valid_D1 : validate c13 D1 = .ok := by decide +kernel
theorem valid_D2 : validate c13 D2 = .ok := by decide +kernel
theorem valid_F : validate c13 F = .ok := by decide +kernel
theorem valid_G0 : validate c13 G0 = .ok := by decide +kernel
theorem valid_J : validate c13 J = .ok := by decide +kernel
theorem mismatch_D0x : validate c13 D0x = .crcMismatch := by decide +kernel

/-- VALIDATE's response, given the verdict. -/
theorem exec_validate_of {p : Packet} {s : State} {v : Status} (h : validate s.params p = v) :
    exec (.validate p) s = .next { s with responses := s.responses ++ [⟨v, .absent⟩] } := by
  rw [exec, execValidate, h, reply_eq]

/-- PROCESS's effect, given what the reassembler answers. -/
theorem exec_process_of {p : Packet} {nowMs : Time} {s : State} {r : Response} {t : Table}
    (h : processPacket s.params p nowMs s.sessions = (r, t)) :
    exec (.process p nowMs) s = .next { s with sessions := t, responses := s.responses ++ [r] } := by
  rw [exec_process_eq, h]

theorem session_inv_oneStored : SessionInv c13 0x33 ⟨3, 0, 1, [some D0, none, none]⟩ where
  id_ne_zero := by decide
  slots_length := rfl
  count_eq := rfl
  count_pos := by decide
  count_lt := by decide
  stored_valid := by
    intro i q h
    match i, h with
    | 0, h => cases h; decide +kernel
    | 1, h => cases h
    | 2, h => cases h
    | _ + 3, h => simp at h

theorem session_inv_twoStored : SessionInv c13 0x33 ⟨3, 0, 2, [some D0, none, some D2]⟩ where
  id_ne_zero := by decide
  slots_length := rfl
  count_eq := rfl
  count_pos := by decide
  count_lt := by decide
  stored_valid := by
    intro i q h
    match i, h with
    | 0, h => cases h; decide +kernel
    | 1, h => cases h
    | 2, h => cases h; decide +kernel
    | _ + 3, h => simp at h

theorem inv_oneStored : (stateOf c13 oneStored).Inv where
  sorted := by simp [stateOf, oneStored]
  bounded := by decide
  live := by
    intro e he
    simp only [stateOf, oneStored, List.mem_singleton] at he
    subst he
    exact session_inv_oneStored

theorem inv_twoStored : (stateOf c13 twoStored).Inv where
  sorted := by simp [stateOf, twoStored]
  bounded := by decide
  live := by
    intro e he
    simp only [stateOf, twoStored, List.mem_singleton] at he
    subst he
    exact session_inv_twoStored

theorem inv_empty (c : Params) : (stateOf c []).Inv where
  sorted := List.Pairwise.nil
  bounded := Nat.zero_le _
  live := by intro e he; cases he

/-- CrcScopeIsWireBytes: payloadSize = N. -/
theorem witness_crcScopeIsWireBytes : D0.sized c13 = true ∧ D0.payloadSize.toNat ≤ c13.N := by decide

/-- Crc16CommandAnswers, FinalizeCommandAnswers, ExtractCommandAnswers: payloadSize = N, and N + 1. -/
theorem witness_sizeClauses :
    D0.payloadSize.toNat ≤ (stateOf c13 []).params.N ∧
      (stateOf c13 []).params.N < ({ D0 with payloadSize := 5 } : Packet).payloadSize.toNat := by decide

/-- FinalizeIsIdempotent. -/
theorem witness_finalizeIsIdempotent : ∃ t, exec (.finalize D0x) (stateOf c13 []) = .next t ∧
    t.responses = (stateOf c13 []).responses ++ [⟨.ok, .packet D0⟩] :=
  ⟨{ stateOf c13 [] with responses := [⟨.ok, .packet D0⟩] },
    by rw [show D0 = finalized D0x by decide +kernel]; rfl, rfl⟩

/-- VerifyCommandAnswers: a match and a mismatch at payloadSize = N, and N + 1. -/
theorem witness_verifyCommandAnswers :
    (D0.payloadSize.toNat ≤ c13.N ∧ Machine.crc16 (headerBytes D0 ++ D0.payload.take D0.payloadSize.toNat) = D0.checksum) ∧
    (D0x.payloadSize.toNat ≤ c13.N ∧
      Machine.crc16 (headerBytes D0x ++ D0x.payload.take D0x.payloadSize.toNat) ≠ D0x.checksum) ∧
    c13.N < ({ D0 with payloadSize := 5 } : Packet).payloadSize.toNat := by decide +kernel

/-- PaddingNeverRead: D2 and D2' of L3-3. -/
theorem witness_paddingNeverRead : D2.payloadSize.toNat ≤ (stateOf c13 []).params.N ∧
    [0x38#8, 0x39#8, 0xa5#8, 0xff#8].take D2.payloadSize.toNat = D2.payload.take D2.payloadSize.toNat := by decide

/-- SingleBitFlipChangesCrc: bit 7 of the last scope byte. -/
theorem witness_singleBitFlip : ∃ q : Packet, q.sized c13 = true ∧ D0.sized c13 = true ∧ D0.payloadSize.toNat ≤ c13.N ∧
    q.payloadSize = D0.payloadSize ∧
    ∃ k j b, j < 8 ∧ (crcScope D0)[k]? = some b ∧ crcScope q = (crcScope D0).set k (b ^^^ (1#8 <<< j)) :=
  ⟨{ D0 with payload := [0x30, 0x31, 0x32, 0xB3] }, by decide, by decide, by decide, rfl, 10, 7, 0x33, by decide,
    by decide, by decide⟩

/-- SizeFlipPassesUndetected. -/
theorem witness_sizeFlip : State.reset.params.maxPacketSize = 255 := rfl

/-- FirstFailingStageIsReported: the first stage fails; the last one alone fails; none fails. -/
theorem witness_firstStageFails : ∃ demand st,
    (validationStages c13 { D0 with protocolVersion := 2 })[0]? = some (demand, st) ∧ ¬ demand ∧
    ∀ (j : Nat) (e : Prop × Status), j < 0 → (validationStages c13 { D0 with protocolVersion := 2 })[j]? = some e → e.1 :=
  ⟨_, _, rfl, by decide, fun _ _ h => absurd h (Nat.not_lt_zero _)⟩

/-- Every stage of a valid packet holds. -/
theorem stages_D0 : ∀ e ∈ validationStages c13 D0, e.1 := by
  simp only [validationStages, List.forall_mem_cons, List.not_mem_nil]
  refine ⟨?_, ?_, ?_, ?_, ?_, ?_, ?_, ?_, ?_, by simp⟩ <;> decide +kernel

theorem witness_lastStageFails : ∃ demand st, (validationStages c13 D0x)[8]? = some (demand, st) ∧ ¬ demand ∧
    ∀ (j : Nat) (e : Prop × Status), j < 8 → (validationStages c13 D0x)[j]? = some e → e.1 := by
  refine ⟨_, _, rfl, by decide +kernel, ?_⟩
  intro j e hj he
  interval_cases j <;> (cases he; decide +kernel)

/-- FirstFailingStageIsReported: a chunk of N - 1 bytes that is not the final one, stage 6. -/
theorem witness_sixthStageFails : ∃ demand st,
    (validationStages c13 { D0 with payloadSize := 3 })[5]? = some (demand, st) ∧ ¬ demand ∧
    ∀ (j : Nat) (e : Prop × Status), j < 5 → (validationStages c13 { D0 with payloadSize := 3 })[j]? = some e → e.1 := by
  refine ⟨_, _, rfl, by decide +kernel, ?_⟩
  intro j e hj he
  interval_cases j <;> (cases he; decide +kernel)

/-- ValidatedPacketGuarantee, UnusedFlagBitsAccepted (all of bits 2 to 7). -/
theorem witness_validatedPacket :
    exec (.validate D0) (stateOf c13 []) = .next { stateOf c13 [] with responses := [] ++ [⟨.ok, .absent⟩] } ∧
      0xFC#8 &&& 0x03#8 = 0#8 :=
  ⟨exec_validate_of (s := stateOf c13 []) valid_D0, by decide⟩

/-- ThreeUsersGiveOneVerdict, WireImageLayout, WireFormatRoundTrip, EncodedCommandDecodes, CommandWordsDecode,
EveryAnswerIsTyped: a sized packet, valid or not. -/
theorem witness_sizedPackets : D0.sized (stateOf c13 []).params = true ∧ validate c13 D0 = .ok ∧
    D0x.sized (stateOf c13 []).params = true ∧ validate c13 D0x ≠ .ok ∧
    (wireEncode D0).length = c13.maxPacketSize ∧ (Instr.process D0 7).wf c13 = true := by decide +kernel

/-- ParseCommandAnswers, ParseIgnoresExcessBytes: P - 1 bytes and P bytes. -/
theorem witness_parseLengths : ((wireEncode D0).take 12).length < (stateOf c13 []).params.maxPacketSize ∧
    (stateOf c13 []).params.maxPacketSize ≤ (wireEncode D0).length ∧
    (wireEncode D0).length = (stateOf c13 []).params.maxPacketSize := by decide

/-- What PARSE answers to D0's image. -/
theorem exec_parse_D0 : exec (.parse (wireEncode D0)) (stateOf c13 []) =
    .next { stateOf c13 [] with responses := [⟨.ok, .packet D0⟩] } := by
  have h : wireDecode (stateOf c13 []).params ((wireEncode D0).take (stateOf c13 []).params.maxPacketSize) = D0 := by
    decide +kernel
  have hl : ¬ (wireEncode D0).length < (stateOf c13 []).params.maxPacketSize := by decide
  have hv : validate (stateOf c13 []).params D0 = .ok := valid_D0
  simp only [exec, execParse, if_neg hl, h, hv, if_pos]
  rfl

/-- ParsedPacketIsFaithful, ReceiveIsParseThenProcess: PARSE gives a packet. -/
theorem witness_parsedPacket : ∃ p t, exec (.parse (wireEncode D0)) (stateOf c13 []) = .next t ∧
    t = { stateOf c13 [] with responses := (stateOf c13 []).responses ++ [⟨.ok, .packet p⟩] } :=
  ⟨D0, _, exec_parse_D0, rfl⟩

/-- ReceiveIsParseThenProcess: PARSE fails. -/
theorem witness_parseFails : ∃ st t, st ≠ Status.ok ∧ exec (.parse []) (stateOf c13 []) = .next t ∧
    t.responses = (stateOf c13 []).responses ++ [⟨st, .absent⟩] :=
  ⟨.transportSizeError, { stateOf c13 [] with responses := [⟨.transportSizeError, .absent⟩] }, by decide, rfl, rfl⟩

/-- SplitCommandAnswers, SendIsSplitThenEncodes: the empty buffer, 1 byte, 255 × N bytes, one more. -/
theorem witness_splitLengths :
    (1 ≤ [0x48#8].length ∧ [0x48#8].length ≤ 255 * (stateOf c13 []).params.N) ∧
    (1 ≤ (List.replicate 1020 0#8).length ∧ (List.replicate 1020 0#8).length ≤ 255 * (stateOf c13 []).params.N) ∧
    255 * (stateOf c13 []).params.N < (List.replicate 1021 0#8).length := by
  have hN : (stateOf c13 []).params.N = 4 := rfl
  rw [List.length_replicate, List.length_replicate, hN]
  refine ⟨⟨?_, ?_⟩, ⟨?_, ?_⟩, ?_⟩ <;> first | omega | decide

/-- SplitPacketsCarryBuffer, SplitPacketsValidate (an id that is not 0, and 0), SendIsSplitThenEncodes. -/
theorem witness_splitPackets : ∀ id : U16, ∃ ps, ps ≠ [] ∧ exec (.split [1, 2, 3, 4, 5] id) (stateOf c13 []) =
    .next { stateOf c13 [] with responses := (stateOf c13 []).responses ++ [⟨.ok, .packets ps⟩] } :=
  fun id => ⟨chunks c13 [1, 2, 3, 4, 5] id, by intro h; exact absurd (congrArg List.length h) (by simp [chunks, chunkCount]; decide), rfl⟩

/-- ProcessRejectsInvalidPacket. -/
theorem witness_processRejects : Status.crcMismatch ≠ .ok ∧ exec (.validate D0x) (stateOf c13 oneStored) =
    .next { stateOf c13 oneStored with responses := [] ++ [⟨.crcMismatch, .absent⟩] } :=
  ⟨by decide, exec_validate_of (s := stateOf c13 oneStored) mismatch_D0x⟩

/-- CapRefusesNewSessionsOnly: the cap just reached, a new id and a live one. -/
theorem witness_cap : validate c13 J = .ok ∧ lookup J.messageId full = none ∧ c13.maxSessions ≤ full.length ∧
    validate c13 A0 = .ok ∧ (lookup A0.messageId full).isSome = true := by decide +kernel

/-- FirstChunkCreatesSession (one session below the cap), SingleChunkCompletesAtOnce. -/
theorem witness_firstChunk : (validate c13 G0 = .ok ∧ lookup G0.messageId oneStored = none ∧
    oneStored.length < c13.maxSessions ∧ 2 ≤ G0.totalChunks.toNat) ∧
    (validate c13 J = .ok ∧ lookup J.messageId oneStored = none ∧ J.totalChunks.toNat = 1) := by decide +kernel

/-- UnplaceableChunkChangesNothing: an index equal to the session's totalChunks, and an occupied slot. -/
theorem witness_unplaceable :
    (validate c13 G1 = .ok ∧ lookup G1.messageId [(0x44, ⟨1, 0, 0, [none]⟩)] = some ⟨1, 0, 0, [none]⟩ ∧
      (1#8).toNat ≤ G1.chunkIndex.toNat) ∧
    (validate c13 F = .ok ∧ lookup F.messageId twoStored = some ⟨3, 0, 2, [some D0, none, some D2]⟩ ∧
      (3#8).toNat ≤ F.chunkIndex.toNat) ∧
    (validate c13 K = .ok ∧ lookup K.messageId oneStored = some ⟨3, 0, 1, [some D0, none, none]⟩ ∧
      K.chunkIndex.toNat < (3#8).toNat ∧ [some D0, none, none][K.chunkIndex.toNat]? = some (some D0)) := by
  decide +kernel

/-- ChunkIsStoredInItsSlot: the last slot of the session, two still missing before. -/
theorem witness_chunkStored : validate c13 D2 = .ok ∧
    lookup D2.messageId oneStored = some ⟨3, 0, 1, [some D0, none, none]⟩ ∧ D2.chunkIndex.toNat < (3#8).toNat ∧
    [some D0, none, none][D2.chunkIndex.toNat]? = some none ∧ (1#8).toNat + 1 < (3#8).toNat := by decide +kernel

/-- LastChunkCompletesMessage. -/
theorem witness_lastChunk : validate c13 D1 = .ok ∧
    lookup D1.messageId twoStored = some ⟨3, 0, 2, [some D0, none, some D2]⟩ ∧ D1.chunkIndex.toNat < (3#8).toNat ∧
    [some D0, none, some D2][D1.chunkIndex.toNat]? = some none ∧ (2#8).toNat + 1 = (3#8).toNat := by decide +kernel

/-- CompletionHasEveryChunkOnce. -/
theorem witness_completion : ∃ t out, (stateOf c13 twoStored).Inv ∧ D1.sized c13 = true ∧
    exec (.process D1 4) (stateOf c13 twoStored) = .next t ∧
    t.responses = (stateOf c13 twoStored).responses ++ [⟨.complete, .data out⟩] :=
  ⟨{ stateOf c13 twoStored with
      sessions := []
      responses := [⟨.complete, .data [0x30, 0x31, 0x32, 0x33, 0x34, 0x35, 0x36, 0x37, 0x38, 0x39]⟩] },
    _, inv_twoStored, by decide, exec_process_of (s := stateOf c13 twoStored) (by decide +kernel), rfl⟩

/-- PruneRemovesExactlyStale. -/
theorem witness_prune : tableSorted (stateOf c13 full).sessions := by simp [stateOf, full]

/-- PrunedMessageStartsAgain: one millisecond over the timeout. -/
theorem witness_prunedMessage : (stateOf c13 oneStored).Inv ∧
    lookup D1.messageId oneStored = some ⟨3, 0, 1, [some D0, none, none]⟩ ∧
    (1000#32).toNat < (1001#32 - (0#32 : Time)).toNat ∧ validate c13 D1 = .ok ∧ 2 ≤ D1.totalChunks.toNat :=
  ⟨inv_oneStored, by decide +kernel, by decide, valid_D1, by decide⟩

/-- RepeatedCommandsAreIdempotent: two RESETs, two PRUNEs, and a packet just stored. -/
theorem witness_repeated : (∃ t u, exec .reset (stateOf c13 full) = .next t ∧ exec .reset t = .next u) ∧
    (∃ t u, exec (.prune 2001 1000) (stateOf c13 full) = .next t ∧ exec (.prune 2001 1000) t = .next u) ∧
    (stateOf c13 oneStored).Inv ∧ ∃ t, exec (.process D2 2) (stateOf c13 oneStored) = .next t ∧
      t.responses = (stateOf c13 oneStored).responses ++ [⟨.stored, .absent⟩] :=
  ⟨⟨_, _, rfl, rfl⟩, ⟨_, _, rfl, rfl⟩, inv_oneStored,
    { stateOf c13 oneStored with
      sessions := [(0x33, ⟨3, 0, 2, [some D0, none, some D2]⟩)]
      responses := [⟨.stored, .absent⟩] },
    exec_process_of (s := stateOf c13 oneStored) (by decide +kernel), rfl⟩

/-- CompletionHasEveryChunkOnce: a message whose id is not live. -/
theorem witness_completionAtOnce : ∃ t out, (stateOf c13 oneStored).Inv ∧ J.sized c13 = true ∧
    lookup J.messageId oneStored = none ∧ exec (.process J 5) (stateOf c13 oneStored) = .next t ∧
    t.responses = (stateOf c13 oneStored).responses ++ [⟨.complete, .data out⟩] :=
  ⟨{ stateOf c13 oneStored with responses := [⟨.complete, .data [0x78, 0x79, 0x7a]⟩] }, _, inv_oneStored, by decide,
    by decide +kernel, exec_process_of (s := stateOf c13 oneStored) (by decide +kernel), rfl⟩

/-- SessionLifecycle: a session comes into being. -/
theorem witness_sessionCreated : (stateOf c13 []).Inv ∧ lookup 0x33 (stateOf c13 []).sessions = none ∧
    ∃ t, exec (.process D0 0) (stateOf c13 []) = .next t ∧
      lookup 0x33 t.sessions = some ⟨3, 0, 1, [some D0, none, none]⟩ :=
  ⟨inv_empty c13, rfl, { stateOf c13 [] with sessions := oneStored, responses := [⟨.stored, .absent⟩] },
    exec_process_of (s := stateOf c13 []) (by decide +kernel), rfl⟩

/-- SessionLifecycle: a session changes (L3-3 step 8). -/
theorem witness_sessionChanged : (stateOf c13 oneStored).Inv ∧
    lookup 0x33 (stateOf c13 oneStored).sessions = some ⟨3, 0, 1, [some D0, none, none]⟩ ∧
    ∃ t, exec (.process D2 2) (stateOf c13 oneStored) = .next t ∧
      lookup 0x33 t.sessions = some ⟨3, 0, 2, [some D0, none, some D2]⟩ :=
  ⟨inv_oneStored, rfl, { stateOf c13 oneStored with sessions := twoStored, responses := [⟨.stored, .absent⟩] },
    exec_process_of (s := stateOf c13 oneStored) (by decide +kernel), rfl⟩

/-- SessionLifecycle: a session stays as it is under a duplicate (L3-3 step 7). -/
theorem witness_sessionKept : (stateOf c13 oneStored).Inv ∧
    ∃ t, exec (.process D0 1) (stateOf c13 oneStored) = .next t ∧
      lookup 0x33 t.sessions = lookup 0x33 (stateOf c13 oneStored).sessions :=
  ⟨inv_oneStored, { stateOf c13 oneStored with responses := [⟨.duplicate, .absent⟩] },
    exec_process_of (s := stateOf c13 oneStored) (by decide +kernel), rfl⟩

/-- SessionLifecycle: a session goes by completion (L3-3 step 10). -/
theorem witness_sessionCompleted : (stateOf c13 twoStored).Inv ∧
    lookup 0x33 (stateOf c13 twoStored).sessions = some ⟨3, 0, 2, [some D0, none, some D2]⟩ ∧
    ∃ t, exec (.process D1 4) (stateOf c13 twoStored) = .next t ∧ lookup 0x33 t.sessions = none :=
  ⟨inv_twoStored, rfl, { stateOf c13 twoStored with
      sessions := []
      responses := [⟨.complete, .data [0x30, 0x31, 0x32, 0x33, 0x34, 0x35, 0x36, 0x37, 0x38, 0x39]⟩] },
    exec_process_of (s := stateOf c13 twoStored) (by decide +kernel), rfl⟩

/-- SessionLifecycle: a session goes by PRUNE, one millisecond over the timeout, and by RESET. -/
theorem witness_sessionRemoved : (stateOf c13 oneStored).Inv ∧
    lookup 0x33 (stateOf c13 oneStored).sessions = some ⟨3, 0, 1, [some D0, none, none]⟩ ∧
    (∃ t, exec (.prune 1001 1000) (stateOf c13 oneStored) = .next t ∧ lookup 0x33 t.sessions = none) ∧
    ∃ t, exec .reset (stateOf c13 oneStored) = .next t ∧ lookup 0x33 t.sessions = none :=
  ⟨inv_oneStored, rfl, ⟨_, exec_prune_eq _ _ _, by decide +kernel⟩, ⟨_, exec_reset_eq _, rfl⟩⟩

/-- SplitReassemblesInAnyOrder: two chunks, the second one first and twice, a PRUNE that keeps the session in between. -/
theorem witness_splitReassembles :
    ∃ (ps : List Packet) (run : List Instr) (last : Instr),
      1 ≤ [1#8, 2#8, 3#8, 4#8, 5#8].length ∧ (0xFFFF#16 : U16) ≠ 0 ∧
      exec (.split [1, 2, 3, 4, 5] 0xFFFF) (stateOf c13 []) =
        .next { stateOf c13 [] with responses := (stateOf c13 []).responses ++ [⟨.ok, .packets ps⟩] } ∧
      lookup 0xFFFF (stateOf c13 []).sessions = none ∧ (stateOf c13 []).sessions.length < c13.maxSessions ∧
      (∀ i, (run ++ [last]).head? = some i → delivers ps i) ∧
      undisturbed ps 0xFFFF (run ++ [last]) (stateOf c13 []) ∧ delivers ps last ∧
      (∃ p ∈ ps, ∀ nowMs, Instr.process p nowMs ∉ run) ∧
      (∀ p ∈ ps, ∃ nowMs, Instr.process p nowMs ∈ run ++ [last]) := by
  have hp : chunks c13 [1, 2, 3, 4, 5] 0xFFFF =
      [chunk c13 [1, 2, 3, 4, 5] 0xFFFF 0, chunk c13 [1, 2, 3, 4, 5] 0xFFFF 1] := by decide +kernel
  have hne : chunk c13 [1, 2, 3, 4, 5] 0xFFFF 0 ≠ chunk c13 [1, 2, 3, 4, 5] 0xFFFF 1 := by decide +kernel
  have hs : exec (.split [1, 2, 3, 4, 5] 0xFFFF) (stateOf c13 []) = .next { stateOf c13 [] with
      responses := (stateOf c13 []).responses ++ [⟨.ok, .packets (chunks c13 [1, 2, 3, 4, 5] 0xFFFF)⟩] } := rfl
  rw [hp] at hs
  generalize ha : chunk c13 [1, 2, 3, 4, 5] 0xFFFF 0 = a at hs hne
  generalize hb : chunk c13 [1, 2, 3, 4, 5] 0xFFFF 1 = b at hs hne
  have h1 : exec (.process b 10) (stateOf c13 []) = .next { stateOf c13 [] with
      sessions := [(0xFFFF, ⟨2, 10, 1, [none, some b]⟩)], responses := [⟨.stored, .absent⟩] } := by
    subst hb
    exact exec_process_of (s := stateOf c13 []) (by decide +kernel)
  refine ⟨[a, b], [.process b 10, .prune 1010 1000, .process b 1500], .process a 2000, by decide, by decide, hs, rfl,
    by decide, ?_, ?_, ⟨a, by simp, 2000, rfl⟩, ⟨a, by simp, by intro n; simp [hne]⟩, ?_⟩
  · intro i hi
    cases hi
    exact ⟨b, by simp, 10, rfl⟩
  · refine ⟨.inl (by simp), fun t ht => ?_⟩
    rw [h1] at ht
    cases ht
    refine ⟨?_, fun t ht => ⟨.inl (by simp), fun t ht => ⟨.inl (by simp), fun t ht => trivial⟩⟩⟩
    intro v hv
    cases hv
    simp [stale, age]
  · intro p hp
    rcases List.mem_cons.1 hp with rfl | hp
    · exact ⟨2000, by simp⟩
    · rw [List.mem_singleton.1 hp]
      exact ⟨10, by simp⟩

/-- EveryStepKeepsInv, StepAnswersOneCommand: a step that idles. -/
theorem witness_everyStep : State.reset.Inv ∧ step State.reset = .next State.reset := ⟨inv_empty _, rfl⟩

/-- EveryStepKeepsInv, StepAnswersOneCommand, StepRunsDecodedCommand: a step that runs a command. -/
theorem witness_stepRuns : ∃ s t, s.Inv ∧ s.commands = [encode (.process D0 0)] ∧
    decode s.params (encode (.process D0 0)) = .ok (.process D0 0) ∧ step s = .next t ∧ t.sessions = oneStored := by
  refine ⟨{ stateOf c13 [] with commands := [encode (.process D0 0)] },
    { stateOf c13 [] with sessions := oneStored, responses := [⟨.stored, .absent⟩] },
    ⟨List.Pairwise.nil, Nat.zero_le _, by intro e he; cases he⟩, rfl, rfl, ?_, rfl⟩
  show exec (.process D0 0) (stateOf c13 []) = _
  exact exec_process_of (s := stateOf c13 []) (by decide +kernel)

/-- ResetCannotBeToldFromHardwareReset. -/
theorem witness_resetCommand : ∃ t, exec .reset (stateOf c13 full) = .next t := ⟨_, rfl⟩

/-- FailureLeavesStateAlone: a response that is no success. -/
theorem witness_failure : ∃ r t, exec (.process J 5) (stateOf c13 full) =
    .next { stateOf c13 full with sessions := t, responses := (stateOf c13 full).responses ++ [r] } ∧
    r.status ∉ [Status.ok, .complete, .stored] :=
  ⟨⟨.capacityExceeded, .absent⟩, full, exec_process_of (s := stateOf c13 full) (by decide +kernel), by decide⟩

/-- SessionTableIsTheOnlyMemory: two different tables under a command that reads none, and the same table under one that does. -/
theorem witness_onlyMemory : (stateOf c13 full).params = (stateOf c13 []).params ∧
    (stateOf c13 full).sessions ≠ (stateOf c13 []).sessions ∧ (∀ p nowMs, Instr.crc16 D0 ≠ .process p nowMs) ∧
    (∀ nowMs timeoutMs, Instr.crc16 D0 ≠ .prune nowMs timeoutMs) ∧ Instr.crc16 D0 ≠ .reset ∧
    ({ stateOf c13 full with responses := [⟨.ok, .absent⟩] } : State).sessions = (stateOf c13 full).sessions :=
  ⟨rfl, by simp [stateOf, full], by simp, by simp, by simp, rfl⟩

/-- TableIsDeterminedByItsReads. -/
theorem witness_tables : ∃ t u : Table, t ≠ [] ∧ tableSorted t ∧ tableSorted u ∧ ∀ id, lookup id t = lookup id u :=
  ⟨full, full, by simp [full], by simp [full], by simp [full], fun _ => rfl⟩

/-- IllegalOpcodeIsAnswered, at each end of its ranges, and StepRunsDecodedCommand's idle clause. -/
theorem witness_illegalOpcode :
    ((0x00#8).toNat = 0 ∧ 0x0C ≤ (0x0C#8).toNat ∧ 0x0C ≤ (0xFF#8).toNat) ∧
    (1 ≤ (0x01#8).toNat ∧ (0x0B#8).toNat ≤ 0x0B) ∧ State.reset.commands = [] ∧
    ∃ s : State, s.commands = [⟨0x0C, []⟩] := ⟨by decide, by decide, rfl, { State.reset with commands := [⟨0x0C, []⟩] }, rfl⟩

/-- MalformedPortContentIsRefused. -/
theorem witness_malformed : ∃ s : State, s.commands = [⟨0x01, [.packet misfit]⟩] ∧ decodeOpcode 0x01 = some .crc16 ∧
    assembleOperands .crc16 [.u16 3] = none ∧ assembleOperands .crc16 [.packet misfit] = some (.crc16 misfit) ∧
    (Instr.crc16 misfit).wf s.params = false :=
  ⟨{ stateOf c13 [] with commands := [⟨0x01, [.packet misfit]⟩] }, rfl, by decide, rfl, rfl, by decide⟩

/-- StatusCodeNumbers. -/
theorem witness_statusCode : statusCode .illegalCommand = statusCode .illegalCommand := rfl

/-- PaddedLiteralIsSized: a payload of 2 bytes in a slot of 4, no `crc=`. -/
theorem witness_paddedLiteral : ∃ l : PacketLit, l.pad = true ∧ l.payload.length ≤ c13.N ∧ l.crc = none ∧
    0 < l.payload.length ∧ l.payload.length ≤ 3 ∧ 3 < c13.N :=
  ⟨⟨1, 1, 0, 2, 3, 1, [0x48, 0x69], true, none⟩, rfl, by decide, rfl, by decide, by decide, by decide⟩

end Sys2Proof.Tests
end

section
/-! What a step does, one equation per case of the port: nothing waits, or a command does. -/

namespace Sys2Proof.Machine

/-- With no command waiting the engine idles (R252, log entry 11). -/
theorem step_of_no_command {s : State} (hc : s.commands = []) : step s = .next s := by
  simp only [step, accept, hc, idle]

/-- A waiting command is taken from the port and run on what is left (R6, R249). -/
theorem step_of_command {s : State} {cmd : Command} {rest : List Command} (hc : s.commands = cmd :: rest) :
    step s = runCommand cmd (s.setCommands rest) := by
  simp only [step, accept, hc]

/-- A command that decodes is run as its instruction. -/
theorem runCommand_of_decode {s : State} {cmd : Command} {i : Instr} (hd : decode s.params cmd = .ok i) :
    runCommand cmd s = exec i s := by
  simp only [runCommand, hd]

/-- Settles O47: taking the command from the port leaves the parameters that the decoder reads, so what runs is the
instruction decoded before it was taken. -/
theorem stepRunsDecodedCommand : Obligations.StepRunsDecodedCommand := by
  unfold Obligations.StepRunsDecodedCommand
  refine ⟨fun s cmd rest i hc hd => ?_, fun _ => step_of_no_command⟩
  have hd' : decode (s.setCommands rest).params cmd = .ok i := by rwa [State.setCommands_params]
  calc step s = runCommand cmd (s.setCommands rest) := step_of_command hc
    _ = exec i (s.setCommands rest) := runCommand_of_decode hd'

end Sys2Proof.Machine
end

section
/-! The session table: canonical tables that read alike are equal, and the invariant of R23 and R24 said of the table alone,
which a removal keeps, and a write of a session that meets R24. -/

namespace Sys2Proof.Machine

/-- In a table in canonical form the entries are exactly what the ids read (R22). -/
theorem mem_iff_lookup {t : Table} (hs : tableSorted t) (e : U16 × Session) : e ∈ t ↔ lookup e.1 t = some e.2 :=
  ⟨lookup_of_mem hs, mem_of_lookup⟩

/-- Settles O44: equal reads give equal entries, and strictly rising ids leave one order for them. -/
theorem tableIsDeterminedByItsReads : Obligations.TableIsDeterminedByItsReads := by
  unfold Obligations.TableIsDeterminedByItsReads
  intro t u ht hu hread
  have hmem : ∀ e, e ∈ t ↔ e ∈ u := fun e => by rw [mem_iff_lookup ht, mem_iff_lookup hu, hread]
  have irrefl : Std.Irrefl fun a b : U16 × Session => a.1.toNat < b.1.toNat := ⟨fun _ => Nat.lt_irrefl _⟩
  have antisymm : Std.Antisymm fun a b : U16 × Session => a.1.toNat < b.1.toNat :=
    ⟨fun _ _ hab hba => absurd hba (Nat.lt_asymm hab)⟩
  exact ht.eq_of_mem_iff hu hmem

/-- `State.Inv` of the two fields it reads. -/
structure TableInv (c : Params) (t : Table) : Prop where
  sorted : tableSorted t
  bounded : t.length ≤ c.maxSessions
  live : ∀ e ∈ t, SessionInv c e.1 e.2

theorem State.inv_iff (s : State) : s.Inv ↔ TableInv s.params s.sessions :=
  ⟨fun ⟨hs, hb, hl⟩ => ⟨hs, hb, hl⟩, fun ⟨hs, hb, hl⟩ => ⟨hs, hb, hl⟩⟩

theorem State.inv_setCommands (s : State) (rest : List Command) : (s.setCommands rest).Inv ↔ s.Inv :=
  (State.inv_iff _).trans (State.inv_iff s).symm

theorem State.inv_respond (s : State) (r : Response) : (s.respond r).Inv ↔ s.Inv :=
  (State.inv_iff _).trans (State.inv_iff s).symm

theorem TableInv.nil (c : Params) : TableInv c [] where
  sorted := List.Pairwise.nil
  bounded := Nat.zero_le _
  live := List.forall_mem_nil _

theorem TableInv.filter {c : Params} {t : Table} (h : TableInv c t) (f : U16 × Session → Bool) :
    TableInv c (t.filter f) where
  sorted := tableSorted_filter f h.sorted
  bounded := (List.length_filter_le f t).trans h.bounded
  live e he := h.live e (List.mem_of_mem_filter he)

theorem TableInv.remove {c : Params} {t : Table} (h : TableInv c t) (id : U16) : TableInv c (remove id t) :=
  h.filter _

/-- There is room to write a session of `id`: it replaces one (R197), or the cap admits one more (R193). -/
def hasRoom (c : Params) (id : U16) (t : Table) : Prop :=
  (∃ v, lookup id t = some v) ∨ (lookup id t = none ∧ t.length < c.maxSessions)

theorem length_insert_le {c : Params} {id : U16} {t : Table} (h : TableInv c t) (hr : hasRoom c id t) (v : Session) :
    (insert id v t).length ≤ c.maxSessions := by
  rcases hr with ⟨w, hw⟩ | ⟨hn, hlt⟩
  · exact (length_insert_present h.sorted hw).trans_le h.bounded
  · exact (length_insert_absent hn).trans_le hlt

theorem TableInv.insert {c : Params} {id : U16} {v : Session} {t : Table} (h : TableInv c t) (hr : hasRoom c id t)
    (hv : SessionInv c id v) : TableInv c (insert id v t) where
  sorted := tableSorted_insert h.sorted
  bounded := length_insert_le h hr v
  live e he := by
    rcases mem_insert he with rfl | hmem
    · exact hv
    · exact h.live e hmem

/-- Settles O39: the table is empty after reset (R270). -/
theorem resetStateMeetsInv : Obligations.ResetStateMeetsInv :=
  (State.inv_iff _).2 (TableInv.nil _)

end Sys2Proof.Machine
end

section
/-! The session under delivery: what R24 says of it before its first packet is stored, and after each one. -/

namespace Sys2Proof.Machine

/-- A packet the session of `id` may hold in slot `i` (R24, R200). -/
def storable (c : Params) (id : U16) (i : Nat) (q : Packet) : Prop :=
  q.sized c = true ∧ validate c q = .ok ∧ q.messageId = id ∧ q.chunkIndex.toNat = i

/-- R24 without "at least one packet is stored": a session as PROCESS finds it or has just created it (R194, R195). -/
structure OpenSession (c : Params) (id : U16) (v : Session) : Prop where
  id_ne_zero : id ≠ 0
  slots_length : v.slots.length = v.totalChunks.toNat
  count_eq : v.receivedCount.toNat = occupiedCount v.slots
  count_lt : v.receivedCount.toNat < v.totalChunks.toNat
  stored : ∀ i q, v.slots[i]? = some (some q) → storable c id i q

theorem SessionInv.openSession {c : Params} {id : U16} {v : Session} (h : SessionInv c id v) : OpenSession c id v where
  id_ne_zero := h.id_ne_zero
  slots_length := h.slots_length
  count_eq := h.count_eq
  count_lt := h.count_lt
  stored := h.stored_valid

/-- What stages 2 and 3 of the validator leave (R122, R123). -/
theorem ids_of_validate_ok {c : Params} {p : Packet} (h : validate c p = .ok) :
    p.messageId ≠ 0 ∧ 1 ≤ p.totalChunks.toNat := by
  have hversion : p.protocolVersion = protocolVersion := by
    by_contra hne
    simp [validate, hne] at h
  have hid : p.messageId ≠ 0 := fun hzero => by simp [validate, hversion, hzero] at h
  have htotal : ¬ p.totalChunks.toNat < 1 := fun hlt => by
    rw [validate, if_neg (not_not.2 hversion), if_neg hid, if_pos hlt] at h
    cases h
  exact ⟨hid, Nat.le_of_not_lt htotal⟩

theorem occupiedCount_replicate_none (n : Nat) : occupiedCount (List.replicate n none) = 0 := by
  simp [occupiedCount, List.countP_replicate]

/-- The session a valid packet creates has no packet yet, and waits for at least one (R194). -/
theorem openSession_newSession {c : Params} {p : Packet} (h : validate c p = .ok) (nowMs : Time) :
    OpenSession c p.messageId (newSession p nowMs) where
  id_ne_zero := (ids_of_validate_ok h).1
  slots_length := List.length_replicate
  count_eq := (occupiedCount_replicate_none _).symm
  count_lt := (ids_of_validate_ok h).2
  stored i q hq := by simp [newSession, List.getElem?_replicate] at hq

/-- Below totalChunks the u8 count does not wrap (R197). -/
theorem storePacket_count {c : Params} {id : U16} {v : Session} (h : OpenSession c id v) (p : Packet) :
    (storePacket v p).receivedCount.toNat = v.receivedCount.toNat + 1 := by
  have hlt := h.count_lt
  have htotal := v.totalChunks.isLt
  have hone : (1 : Byte).toNat = 1 := rfl
  rw [storePacket, BitVec.toNat_add, hone, Nat.mod_eq_of_lt (by omega)]

/-- Each slot after the store step holds the new packet or what it held (R197). -/
theorem storePacket_slot {v : Session} {p q : Packet} {i : Nat} (h : (storePacket v p).slots[i]? = some (some q)) :
    (p.chunkIndex.toNat = i ∧ q = p) ∨ v.slots[i]? = some (some q) := by
  rw [storePacket, List.getElem?_set] at h
  by_cases hi : p.chunkIndex.toNat = i
  · rw [if_pos hi] at h
    split at h
    · exact .inl ⟨hi, by cases h; rfl⟩
    · cases h
  · exact .inr (by rwa [if_neg hi] at h)

/-- Storing a packet in an empty slot, when it is not the last one missing, makes a session that meets R24. -/
theorem sessionInv_storePacket {c : Params} {v : Session} {p : Packet} (h : OpenSession c p.messageId v)
    (hsized : p.sized c = true) (hvalid : validate c p = .ok) (hindex : p.chunkIndex.toNat < v.totalChunks.toNat)
    (hempty : occupied v p.chunkIndex.toNat = false) (hmissing : v.receivedCount + 1 ≠ v.totalChunks) :
    SessionInv c p.messageId (storePacket v p) where
  id_ne_zero := h.id_ne_zero
  slots_length := List.length_set.trans h.slots_length
  count_eq := by
    have hslot : v.slots[p.chunkIndex.toNat]? = some none :=
      slot_of_not_occupied (h.slots_length.symm ▸ hindex) hempty
    calc (storePacket v p).receivedCount.toNat = v.receivedCount.toNat + 1 := storePacket_count h p
      _ = occupiedCount v.slots + 1 := by rw [h.count_eq]
      _ = occupiedCount (storePacket v p).slots := (occupiedCount_set hslot p).symm
  count_pos := storePacket_count h p ▸ Nat.le_add_left 1 _
  count_lt := by
    have hne : (storePacket v p).receivedCount.toNat ≠ v.totalChunks.toNat :=
      fun heq => hmissing (BitVec.eq_of_toNat_eq heq)
    have hcount := storePacket_count h p
    have hlt := h.count_lt
    show (storePacket v p).receivedCount.toNat < v.totalChunks.toNat
    omega
  stored_valid i q hq := by
    rcases storePacket_slot hq with ⟨hi, rfl⟩ | hold
    · exact ⟨hsized, hvalid, rfl, hi⟩
    · exact h.stored i q hold

/-- Delivery to an open session keeps the table's invariant (R195 to R199). -/
theorem TableInv.deliver {c : Params} {p : Packet} {v : Session} {t : Table} (h : TableInv c t)
    (hsized : p.sized c = true) (hvalid : validate c p = .ok) (hv : OpenSession c p.messageId v)
    (hr : hasRoom c p.messageId t) : TableInv c (deliver p v t).2 := by
  rcases deliver_cases p v t with ⟨-, heq⟩ | ⟨-, -, heq⟩ | ⟨-, -, -, heq⟩ | ⟨hindex, hempty, hmissing, heq⟩
  all_goals rw [heq]
  · exact h
  · exact h
  · exact h.remove _
  · exact h.insert hr (sessionInv_storePacket hv hsized hvalid hindex hempty hmissing)

/-- PROCESS of a sized packet keeps the table's invariant (R191). -/
theorem TableInv.processPacket {c : Params} {p : Packet} {t : Table} (h : TableInv c t) (hsized : p.sized c = true)
    (nowMs : Time) : TableInv c (processPacket c p nowMs t).2 := by
  rcases processPacket_cases c p nowMs t with
    ⟨-, heq⟩ | ⟨-, -, -, heq⟩ | ⟨hvalid, habsent, hcap, heq⟩ | ⟨v, hvalid, hlive, heq⟩
  all_goals rw [heq]
  · exact h
  · exact h
  · exact h.deliver hsized hvalid (openSession_newSession hvalid nowMs) (.inr ⟨habsent, hcap⟩)
  · exact h.deliver hsized hvalid (h.live _ (mem_of_lookup hlive)).openSession (.inl ⟨v, hlive⟩)

end Sys2Proof.Machine
end

section
/-! Every command: which ones reach the session table, and what that leaves of it. -/

namespace Sys2Proof.Machine

/-- The commands R20 lets read and write the session table. -/
inductive UsesTable : Instr → Prop where
  | process (p : Packet) (nowMs : Time) : UsesTable (.process p nowMs)
  | prune (nowMs : Time) (timeoutMs : U32) : UsesTable (.prune nowMs timeoutMs)
  | reset : UsesTable .reset

/-- The response is a function of the parameters, and is all that is written. -/
def answersFromParams (f : State → Host.Outcome State Fault Refusal) : Prop :=
  ∃ r : Params → Response, ∀ s, f s = .next (s.respond (r s.params))

theorem answersFromParams_reply (st : Params → Status) (r : Params → Result) :
    answersFromParams fun s => reply (st s.params) (r s.params) s :=
  ⟨fun c => ⟨st c, r c⟩, fun _ => rfl⟩

/-- A test of the parameters may choose between two such answers. -/
theorem answersFromParams_ite (test : Params → Prop) [DecidablePred test]
    {f g : State → Host.Outcome State Fault Refusal} (hf : answersFromParams f) (hg : answersFromParams g) :
    answersFromParams fun s => if test s.params then f s else g s := by
  obtain ⟨rf, hf⟩ := hf
  obtain ⟨rg, hg⟩ := hg
  refine ⟨fun c => if test c then rf c else rg c, fun s => ?_⟩
  by_cases h : test s.params
  · simp only [if_pos h, hf]
  · simp only [if_neg h, hg]

/-- The size test of R104, R105, R106 and R181, before an answer that reads the packet alone. -/
theorem answersFromParams_sizeTest (p : Packet) (r : Result) :
    answersFromParams fun s => if oversized s.params p then raise .invalidPayloadSize s else reply .ok r s :=
  answersFromParams_ite (oversized · p = true) (answersFromParams_reply (fun _ => .invalidPayloadSize) fun _ => .absent)
    (answersFromParams_reply (fun _ => .ok) fun _ => r)

theorem answersFromParams_parse (raw : Bytes) : answersFromParams (execParse raw) :=
  answersFromParams_ite (raw.length < ·.maxPacketSize)
    (answersFromParams_reply (fun _ => .transportSizeError) fun _ => .absent)
    (answersFromParams_ite (fun c => validate c (wireDecode c (raw.take c.maxPacketSize)) = .ok)
      (answersFromParams_reply (fun _ => .ok) fun c => .packet (wireDecode c (raw.take c.maxPacketSize)))
      (answersFromParams_reply (fun c => validate c (wireDecode c (raw.take c.maxPacketSize))) fun _ => .absent))

theorem answersFromParams_split (buf : Bytes) (startingMessageId : U16) :
    answersFromParams (execSplit buf startingMessageId) :=
  answersFromParams_ite (fun _ => buf.length = 0) (answersFromParams_reply (fun _ => .ok) fun _ => .packets [])
    (answersFromParams_ite (·.maxMessageLen < buf.length)
      (answersFromParams_reply (fun _ => .messageTooLong) fun _ => .absent)
      (answersFromParams_reply (fun _ => .ok) fun c => .packets (chunks c buf startingMessageId)))

/-- Three commands use the session table, and the other eight are answered without it (R20). -/
theorem usesTable_or_answersFromParams (i : Instr) : UsesTable i ∨ answersFromParams (exec i) := by
  cases i with
  | process p nowMs => exact .inl (.process p nowMs)
  | prune nowMs timeoutMs => exact .inl (.prune nowMs timeoutMs)
  | reset => exact .inl .reset
  | crc16 p => exact .inr (answersFromParams_sizeTest p _)
  | finalize p => exact .inr (answersFromParams_sizeTest p _)
  | verify p => exact .inr (answersFromParams_sizeTest p _)
  | extract p => exact .inr (answersFromParams_sizeTest p _)
  | validate p => exact .inr (answersFromParams_reply (validate · p) fun _ => .absent)
  | encode p => exact .inr (answersFromParams_reply (fun _ => .ok) fun _ => .image (wireEncode p))
  | parse raw => exact .inr (answersFromParams_parse raw)
  | split buf startingMessageId => exact .inr (answersFromParams_split buf startingMessageId)

/-- The response and the table left are a function of the parameters and the table found (R20). -/
theorem exec_reads_params_and_table (i : Instr) : ∃ (r : Params → Table → Response) (t : Params → Table → Table),
    ∀ s, exec i s = .next { s with sessions := t s.params s.sessions,
                                   responses := s.responses ++ [r s.params s.sessions] } := by
  rcases usesTable_or_answersFromParams i with hi | ⟨r, hr⟩
  · cases hi with
    | process p nowMs =>
      exact ⟨fun c t => (processPacket c p nowMs t).1, fun c t => (processPacket c p nowMs t).2, exec_process_eq p nowMs⟩
    | prune nowMs timeoutMs =>
      exact ⟨fun _ _ => ⟨.ok, .absent⟩, fun _ t => t.filter fun e => !stale nowMs timeoutMs e.2,
        exec_prune_eq nowMs timeoutMs⟩
    | reset => exact ⟨fun _ _ => ⟨.ok, .absent⟩, fun _ _ => [], exec_reset_eq⟩
  · exact ⟨fun c _ => r c, fun _ t => t, hr⟩

/-- Settles O43: the answer of every command is a function of the parameters and the table, and that of the other eight
of the parameters alone. -/
theorem sessionTableIsTheOnlyMemory : Obligations.SessionTableIsTheOnlyMemory := by
  unfold Obligations.SessionTableIsTheOnlyMemory
  intro i s s' hparams
  refine ⟨fun hsessions => ?_, fun hprocess hprune hreset => ?_⟩
  · obtain ⟨r, t, hexec⟩ := exec_reads_params_and_table i
    refine ⟨r s.params s.sessions, t s.params s.sessions, hexec s, ?_⟩
    rw [hexec s', hparams, hsessions]
  · rcases usesTable_or_answersFromParams i with hi | ⟨r, hexec⟩
    · cases hi with
      | process p nowMs => exact absurd rfl (hprocess p nowMs)
      | prune nowMs timeoutMs => exact absurd rfl (hprune nowMs timeoutMs)
      | reset => exact absurd rfl hreset
    · exact ⟨r s.params, hexec s, hparams ▸ hexec s'⟩

/-- A command that can be written down keeps the invariant (R23, R24). -/
theorem exec_keeps_inv {i : Instr} {s t : State} (hwf : i.wf s.params = true) (hs : s.Inv) (h : exec i s = .next t) :
    t.Inv := by
  rw [State.inv_iff] at hs ⊢
  rcases usesTable_or_answersFromParams i with hi | ⟨r, hexec⟩
  · cases hi with
    | process p nowMs => rw [exec_process_eq] at h; cases h; exact hs.processPacket hwf nowMs
    | prune nowMs timeoutMs => rw [exec_prune_eq] at h; cases h; exact hs.filter _
    | reset => rw [exec_reset_eq] at h; cases h; exact TableInv.nil _
  · rw [hexec] at h
    cases h
    exact hs

end Sys2Proof.Machine
end

section
/-! Every step: the three ways to a next state, and what each of them keeps. -/

namespace Sys2Proof.Machine

/-- Of the contents of the port that are no instruction only an illegal opcode is answered (R69). -/
theorem answerUndecoded_next {e : DecodeError} {s t : State} (h : answerUndecoded e s = .next t) :
    t = s.respond ⟨.illegalCommand, .absent⟩ := by
  cases e with
  | illegalCommand => cases h; rfl
  | operandsNotOfCommand => cases h
  | payloadNotSlotSize => cases h

/-- A step that goes on idled, ran an instruction that can be written down, or answered an illegal opcode. -/
theorem step_next_cases {s t : State} (h : step s = .next t) :
    (s.commands = [] ∧ t = s) ∨
    (∃ cmd rest i, s.commands = cmd :: rest ∧ i.wf s.params = true ∧ exec i (s.setCommands rest) = .next t) ∨
    (∃ cmd rest, s.commands = cmd :: rest ∧ t = (s.setCommands rest).respond ⟨.illegalCommand, .absent⟩) := by
  rcases step_cases s with ⟨hc, heq⟩ | ⟨cmd, rest, i, hc, hd, heq⟩ | ⟨cmd, rest, e, hc, -, heq⟩
  all_goals rw [heq] at h
  · exact .inl ⟨hc, by cases h; rfl⟩
  · exact .inr (.inl ⟨cmd, rest, i, hc, wf_of_decode hd, h⟩)
  · exact .inr (.inr ⟨cmd, rest, hc, answerUndecoded_next h⟩)

/-- Settles O38: the invariant reads only the parameters and the table, which the port leaves alone, and every instruction
that decodes keeps it. -/
theorem everyStepKeepsInv : Obligations.EveryStepKeepsInv := by
  unfold Obligations.EveryStepKeepsInv
  intro s t hs h
  have haccepted (rest : List Command) : (s.setCommands rest).Inv := (s.inv_setCommands rest).2 hs
  rcases step_next_cases h with ⟨-, rfl⟩ | ⟨cmd, rest, i, -, hwf, hexec⟩ | ⟨cmd, rest, -, rfl⟩
  · exact hs
  · exact exec_keeps_inv (s := s.setCommands rest) hwf (haccepted rest) hexec
  · exact (State.inv_respond _ _).2 (haccepted rest)

/-- Settles O48: of the three ways to a next state one idles, and each of the other two takes the first command and adds
one response (for an instruction, `exec_shape`). -/
theorem stepAnswersOneCommand : Obligations.StepAnswersOneCommand := by
  unfold Obligations.StepAnswersOneCommand
  intro s t h
  rcases step_next_cases h with ⟨hc, rfl⟩ | ⟨cmd, rest, i, hc, -, hexec⟩ | ⟨cmd, rest, hc, rfl⟩
  · exact ⟨rfl, .inl ⟨hc, rfl⟩⟩
  · obtain ⟨r, t', hshape⟩ := exec_shape i (s.setCommands rest)
    rw [hshape] at hexec
    cases hexec
    exact ⟨rfl, .inr ⟨cmd, r, hc, rfl⟩⟩
  · exact ⟨rfl, .inr ⟨cmd, _, hc, rfl⟩⟩

end Sys2Proof.Machine
end

section
/-! Commands given twice (R45): PRUNE's test is decided per session, and a packet just stored finds its slot occupied. -/

namespace Sys2Proof.Machine

/-- The validator never answers Stored: that status is PROCESS's own (R70). -/
theorem validate_ne_stored (c : Params) (p : Packet) : validate c p ≠ .stored := by
  intro h
  rcases validate_ok_or_code c p with hok | hcode
  · rw [h] at hok
    cases hok
  · rw [h] at hcode
    exact absurd hcode (by decide)

/-- Delivery answers Stored only when it writes the session with the packet in its slot (R197, R199). -/
theorem deliver_eq_of_stored {p : Packet} {v : Session} {t : Table} (h : (deliver p v t).1.status = .stored) :
    p.chunkIndex.toNat < v.totalChunks.toNat ∧
      deliver p v t = (⟨.stored, .absent⟩, insert p.messageId (storePacket v p) t) := by
  rcases deliver_cases p v t with ⟨-, heq⟩ | ⟨-, -, heq⟩ | ⟨-, -, -, heq⟩ | ⟨hindex, -, -, heq⟩
  all_goals rw [heq] at h
  · cases h
  · cases h
  · cases h
  · exact ⟨hindex, heq⟩

/-- PROCESS answers Stored only for a valid packet, whose session it leaves with that packet in its slot (R191, R199). -/
theorem processPacket_stored {c : Params} {p : Packet} {nowMs : Time} {t : Table} (ht : TableInv c t)
    (h : (processPacket c p nowMs t).1.status = .stored) :
    validate c p = .ok ∧ ∃ v, OpenSession c p.messageId v ∧ p.chunkIndex.toNat < v.totalChunks.toNat ∧
      (processPacket c p nowMs t).2 = insert p.messageId (storePacket v p) t := by
  rcases processPacket_cases c p nowMs t with
    ⟨-, heq⟩ | ⟨-, -, -, heq⟩ | ⟨hvalid, -, -, heq⟩ | ⟨v, hvalid, hlive, heq⟩
  all_goals rw [heq] at h ⊢
  · exact absurd h (validate_ne_stored c p)
  · cases h
  · obtain ⟨hindex, hdeliver⟩ := deliver_eq_of_stored h
    exact ⟨hvalid, _, openSession_newSession hvalid nowMs, hindex, by rw [hdeliver]⟩
  · obtain ⟨hindex, hdeliver⟩ := deliver_eq_of_stored h
    exact ⟨hvalid, v, (ht.live _ (mem_of_lookup hlive)).openSession, hindex, by rw [hdeliver]⟩

/-- The slot a packet is stored in is occupied afterwards (R197). -/
theorem occupied_storePacket {v : Session} {p : Packet} (h : p.chunkIndex.toNat < v.slots.length) :
    occupied (storePacket v p) p.chunkIndex.toNat = true := by
  simp [occupied, storePacket, h]

/-- A valid packet for an occupied slot of a live session is answered Duplicate and changes nothing (R196). -/
theorem processPacket_duplicate {c : Params} {p : Packet} {v : Session} {t : Table} (hvalid : validate c p = .ok)
    (hlive : lookup p.messageId t = some v) (hindex : p.chunkIndex.toNat < v.totalChunks.toNat)
    (hoccupied : occupied v p.chunkIndex.toNat = true) (nowMs : Time) :
    processPacket c p nowMs t = (⟨.duplicate, .absent⟩, t) := by
  have hdeliver : deliver p v t = (⟨.duplicate, .absent⟩, t) := by
    rw [deliver, if_neg (Nat.not_le.2 hindex), if_pos hoccupied]
  simp [processPacket, hvalid, hlive, hdeliver]

/-- On the table that PROCESS left when it stored a packet, PROCESS of that packet is a duplicate at any time (R45). -/
theorem processPacket_after_stored {c : Params} {p : Packet} {nowMs : Time} {t : Table} (ht : TableInv c t)
    (h : (processPacket c p nowMs t).1.status = .stored) (later : Time) :
    processPacket c p later (processPacket c p nowMs t).2 =
      (⟨.duplicate, .absent⟩, (processPacket c p nowMs t).2) := by
  obtain ⟨hvalid, v, hopen, hindex, htable⟩ := processPacket_stored ht h
  rw [htable]
  exact processPacket_duplicate (v := storePacket v p) hvalid (lookup_insert_self _ _ _) hindex
    (occupied_storePacket (hopen.slots_length.symm ▸ hindex)) later

/-- Settles O35: RESET leaves the empty table, what PRUNE keeps passes the same test again, and a stored packet occupies
its slot. -/
theorem repeatedCommandsAreIdempotent : Obligations.RepeatedCommandsAreIdempotent := by
  unfold Obligations.RepeatedCommandsAreIdempotent
  refine fun s t u => ⟨fun ht hu => ?reset, fun nowMs timeoutMs ht hu => ?prune,
    fun p nowMs later hs ht hstored => ?process⟩
  case reset =>
    rw [exec_reset_eq] at ht hu
    cases ht
    cases hu
    rfl
  case prune =>
    rw [exec_prune_eq] at ht hu
    cases ht
    cases hu
    simp only [List.filter_filter, Bool.and_self]
  case process =>
    rw [exec_process_eq] at ht
    cases ht
    have hanswer : (processPacket s.params p nowMs s.sessions).1 = ⟨.stored, .absent⟩ := by simpa using hstored
    rw [exec_process_eq, processPacket_after_stored ((State.inv_iff s).1 hs) (congrArg Response.status hanswer) later]

end Sys2Proof.Machine
end

section
/-! The command map (R68 to R71): which opcode bytes select an operation, and that the encoder's commands decode. -/

namespace Sys2Proof

/-- Every row of the command map masks no bit of the opcode byte, so it selects its own pattern alone (R68). -/
theorem selects_iff {row : OpcodeRow} (hrow : row ∈ opcodeTable) (op : Byte) :
    row.selects op = true ↔ row.pattern = op := by
  have hmask : row.mask = 0xFF#8 := (by decide : ∀ row ∈ opcodeTable, row.mask = 0xFF#8) row hrow
  have hand : op &&& 0xFF#8 = op := BitVec.and_allOnes
  rw [OpcodeRow.selects, hmask, hand, beq_iff_eq, eq_comm]

/-- The patterns of the command map are the numbers 1 to 11 (R68). -/
theorem opcodeTable_patterns : opcodeTable.map (·.pattern.toNat) = List.range' 1 11 := by decide

/-- An opcode byte selects an operation when its number is one of 0x01 to 0x0B (R68, R69). -/
theorem decodeOpcode_isSome_iff (op : Byte) :
    (decodeOpcode op).isSome = true ↔ 1 ≤ op.toNat ∧ op.toNat ≤ 0x0B := by
  calc (decodeOpcode op).isSome = true ↔ ∃ row ∈ opcodeTable, row.selects op = true := by
        rw [decodeOpcode, Option.isSome_map, List.find?_isSome]
    _ ↔ ∃ row ∈ opcodeTable, row.pattern.toNat = op.toNat :=
        exists_congr fun row => and_congr_right fun hrow => by rw [selects_iff hrow, BitVec.toNat_inj]
    _ ↔ op.toNat ∈ List.range' 1 11 := by rw [← opcodeTable_patterns, List.mem_map]
    _ ↔ 1 ≤ op.toNat ∧ op.toNat ≤ 0x0B := by
        rw [List.mem_range'_1]
        omega

/-- A command whose opcode selects no operation is illegal, whatever its operands (R69, R243). -/
theorem decode_of_illegal_opcode {cmd : Command} (h : cmd.opcode.toNat = 0 ∨ 0x0C ≤ cmd.opcode.toNat) (c : Params) :
    decode c cmd = .error .illegalCommand := by
  have hnone : decodeOpcode cmd.opcode = none := by
    rw [← Option.not_isSome_iff_eq_none, decodeOpcode_isSome_iff]
    omega
  simp only [decode, hnone]

/-- Settles O50: each row's own round trip. -/
theorem encodedCommandDecodes : Obligations.EncodedCommandDecodes := by
  unfold Obligations.EncodedCommandDecodes
  intro i
  cases i with
  | crc16 p => exact Laws.RoundTrip.crc16 p
  | finalize p => exact Laws.RoundTrip.finalize p
  | verify p => exact Laws.RoundTrip.verify p
  | validate p => exact Laws.RoundTrip.validate p
  | encode p => exact Laws.RoundTrip.encode p
  | parse raw => exact Laws.RoundTrip.parse raw
  | split buf startingMessageId => exact Laws.RoundTrip.split buf startingMessageId
  | extract p => exact Laws.RoundTrip.extract p
  | process p nowMs => exact Laws.RoundTrip.process p nowMs
  | prune nowMs timeoutMs => exact Laws.RoundTrip.prune nowMs timeoutMs
  | reset => exact Laws.RoundTrip.reset

/-- Settles O49: the commands written out are the ones the encoder gives for these instructions. -/
theorem commandWordsDecode : Obligations.CommandWordsDecode :=
  ⟨fun c p => encodedCommandDecodes (.crc16 p) c,
    fun c p => encodedCommandDecodes (.validate p) c,
    fun c raw => encodedCommandDecodes (.parse raw) c rfl,
    fun c buf id => encodedCommandDecodes (.split buf id) c rfl,
    fun c p => encodedCommandDecodes (.extract p) c,
    fun c p nowMs => encodedCommandDecodes (.process p nowMs) c,
    fun c nowMs timeoutMs => encodedCommandDecodes (.prune nowMs timeoutMs) c rfl,
    fun c => encodedCommandDecodes .reset c rfl⟩

end Sys2Proof

namespace Sys2Proof.Machine

/-- Settles O46: such an opcode decodes to nothing, and an illegal command is answered on the state that has accepted it. -/
theorem illegalOpcodeIsAnswered : Obligations.IllegalOpcodeIsAnswered := by
  unfold Obligations.IllegalOpcodeIsAnswered
  refine ⟨fun s cmd rest hc hop => ?_, fun op hlow hhigh => (decodeOpcode_isSome_iff op).2 ⟨hlow, hhigh⟩⟩
  rw [step_of_command hc, runCommand, decode_of_illegal_opcode hop]
  rfl

/-- The statuses in the order of R70. -/
def statuses : List Status :=
  [.ok, .invalidProtocolVersion, .invalidMessageId, .invalidTotalChunks, .invalidChunkIndex, .invalidPayloadSize,
    .invalidSomFlag, .invalidEomFlag, .crcMismatch, .transportSizeError, .complete, .stored, .duplicate, .capacityExceeded,
    .indexBeyondSession, .messageTooLong, .illegalCommand]

theorem mem_statuses (st : Status) : st ∈ statuses := by
  cases st <;> decide

/-- Settles O52: the numbers listed for the seventeen statuses are pairwise different. -/
theorem statusCodeNumbers : Obligations.StatusCodeNumbers := by
  unfold Obligations.StatusCodeNumbers
  have hnodup : (statuses.map statusCode).Nodup := by decide
  exact ⟨by decide, fun a b h => List.inj_on_of_nodup_map hnodup (mem_statuses a) (mem_statuses b) h⟩

end Sys2Proof.Machine
end

section
/-! The padded packet literal (R72). -/

namespace Sys2Proof.Machine

/-- The payload of a literal with `+pad`. -/
theorem packetOfLit_payload_of_pad {l : PacketLit} (hpad : l.pad = true) (c : Params) :
    (packetOfLit c l).payload = l.payload ++ List.replicate (c.N - l.payload.length) 0xFF#8 := by
  rw [packetOfLit, if_pos hpad]

/-- Settles O55: the padding fills the slot from the literal's last payload byte up to N. -/
theorem paddedLiteralIsSized : Obligations.PaddedLiteralIsSized := by
  unfold Obligations.PaddedLiteralIsSized
  intro c l hpad hle
  rw [Packet.sized_iff, packetOfLit_payload_of_pad hpad]
  refine ⟨?length, fun k hk => List.getElem?_append_left hk, fun k hk hN => ?padding, fun hcrc => ?checksum⟩
  case length =>
    rw [List.length_append, List.length_replicate]
    omega
  case padding =>
    rw [List.getElem?_append_right hk, List.getElem?_replicate, if_pos (by omega)]
  case checksum =>
    simp only [packetOfLit, hcrc, Option.getD_none]

end Sys2Proof.Machine
end

section
/-! What VALIDATE, ENCODE, PARSE and SPLIT do to the state, one equation per case. -/

namespace Sys2Proof.Machine

theorem exec_validate_eq (p : Packet) (s : State) :
    exec (.validate p) s =
      .next { s with responses := s.responses ++ [⟨validate s.params p, .absent⟩] } := rfl

/-- VALIDATE answers OK when the verdict is OK (R120). -/
theorem exec_validate_ok_iff (p : Packet) (s : State) :
    exec (.validate p) s = .next { s with responses := s.responses ++ [⟨.ok, .absent⟩] } ↔
      validate s.params p = .ok := by
  simp [exec_validate_eq]

theorem exec_encode_eq (p : Packet) (s : State) :
    exec (.encode p) s = .next { s with responses := s.responses ++ [⟨.ok, .image (wireEncode p)⟩] } := rfl

/-- PARSE of fewer than P bytes (R145). -/
theorem exec_parse_of_short {raw : Bytes} {s : State} (h : raw.length < s.params.maxPacketSize) :
    exec (.parse raw) s = .next { s with responses := s.responses ++ [⟨.transportSizeError, .absent⟩] } := by
  rw [exec, execParse, if_pos h, raise_eq]

/-- The bytes from P on take part in no field (R146). -/
theorem wireDecode_take (c : Params) (raw : Bytes) :
    wireDecode c (raw.take c.maxPacketSize) = wireDecode c raw := by
  have hP := c.N_add
  have hbyte {i : Nat} (hi : i < c.maxPacketSize) : byteAt (raw.take c.maxPacketSize) i = byteAt raw i := by
    simp only [byteAt, List.getD_eq_getElem?_getD, List.getElem?_take_of_lt hi]
  have hword {i : Nat} (hi : i + 1 < c.maxPacketSize) : memRead16 (raw.take c.maxPacketSize) i = memRead16 raw i := by
    rw [memRead16, memRead16, hbyte hi, hbyte (Nat.lt_of_succ_lt hi)]
  have hslot : slice (raw.take c.maxPacketSize) 7 (7 + c.N) = slice raw 7 (7 + c.N) := by
    rw [slice, slice, List.drop_take, List.take_take]
    congr 1
    omega
  simp only [wireDecode]
  rw [hword (by omega), hword (by omega), hslot, hbyte (by omega), hbyte (by omega), hbyte (by omega), hbyte (by omega),
    hbyte (by omega)]

/-- PARSE of at least P bytes (R144): the verdict on the packet they hold, with the packet when it is OK. -/
theorem exec_parse_of_long {raw : Bytes} {s : State} (h : s.params.maxPacketSize ≤ raw.length) :
    exec (.parse raw) s = .next { s with responses := s.responses ++
      [⟨validate s.params (wireDecode s.params raw),
        if validate s.params (wireDecode s.params raw) = .ok then .packet (wireDecode s.params raw) else .absent⟩] } := by
  simp only [exec, execParse, if_neg (Nat.not_lt.2 h), wireDecode_take]
  by_cases hv : validate s.params (wireDecode s.params raw) = .ok
  · rw [if_pos hv, if_pos hv, hv, reply_eq]
  · rw [if_neg hv, if_neg hv, raise_eq]

/-- SPLIT of the empty buffer (R160). -/
theorem exec_split_nil (startingMessageId : U16) (s : State) :
    exec (.split [] startingMessageId) s = .next { s with responses := s.responses ++ [⟨.ok, .packets []⟩] } := rfl

/-- SPLIT of a buffer over 255 × N bytes (R166). -/
theorem exec_split_of_long {buf : Bytes} {s : State} (h : 255 * s.params.N < buf.length) (startingMessageId : U16) :
    exec (.split buf startingMessageId) s =
      .next { s with responses := s.responses ++ [⟨.messageTooLong, .absent⟩] } := by
  have hne : buf.length ≠ 0 := Nat.ne_of_gt (Nat.zero_lt_of_lt h)
  have hlong : s.params.maxMessageLen < buf.length := h
  rw [exec, execSplit, if_neg hne, if_pos hlong, raise_eq]

/-- SPLIT of 1 to 255 × N bytes (R160, R161). -/
theorem exec_split_of_fits {buf : Bytes} {s : State} (hpos : 1 ≤ buf.length) (h : buf.length ≤ 255 * s.params.N)
    (startingMessageId : U16) :
    exec (.split buf startingMessageId) s =
      .next { s with responses := s.responses ++ [⟨.ok, .packets (chunks s.params buf startingMessageId)⟩] } := by
  have hfits : ¬ s.params.maxMessageLen < buf.length := Nat.not_lt.2 h
  rw [exec, execSplit, if_neg (Nat.ne_of_gt hpos), if_neg hfits, reply_eq]

/-- Settles O17: the packet is the field assembly of R62, its two u16 fields in the numbers of R41. -/
theorem parseCommandAnswers : Obligations.ParseCommandAnswers := by
  unfold Obligations.ParseCommandAnswers
  refine ⟨by decide, fun raw s => ⟨exec_parse_of_short, fun hlong => ?_⟩⟩
  have hpayload : (wireDecode s.params raw).payload = (raw.drop 7).take s.params.N := by
    rw [wireDecode, slice, Nat.add_sub_cancel_left]
  have hchecksum : (wireDecode s.params raw).checksum.toNat =
      (raw.getD (7 + s.params.N) 0).toNat + 256 * (raw.getD (8 + s.params.N) 0).toNat := by
    rw [wireDecode, memRead16_toNat, Nat.add_right_comm 7 s.params.N 1]
  exact ⟨wireDecode s.params raw, memRead16_toNat raw 0, rfl, rfl, rfl, rfl, rfl, hpayload, hchecksum,
    exec_parse_of_long hlong⟩

end Sys2Proof.Machine
end

section
/-! What a packet of verdict OK passes, stage by stage, and the flag bits the stages do not read. -/

namespace Sys2Proof.Machine

/-- A stage lets the verdict OK through when it does not fail and the later stages give OK. -/
theorem stage_eq_ok_iff {fails : Prop} [Decidable fails] {st rest : Status} (h : st ≠ .ok) :
    (if fails then st else rest) = .ok ↔ ¬ fails ∧ rest = .ok := by
  by_cases hf : fails
  · simp [hf, h]
  · simp [hf]

/-- The verdict is OK when every stage passes (R120), in the model's own tests (R121 to R129). -/
theorem validate_eq_ok_iff (c : Params) (p : Packet) :
    validate c p = .ok ↔ p.protocolVersion = protocolVersion ∧ p.messageId ≠ 0 ∧ 1 ≤ p.totalChunks.toNat ∧
      p.chunkIndex.toNat < p.totalChunks.toNat ∧ p.payloadSize.toNat ≤ c.N ∧
      (isFinalChunk p = false → p.payloadSize.toNat = c.N) ∧ somFlag p = (p.chunkIndex == 0) ∧
      eomFlag p = isFinalChunk p ∧ checksumMatches p = true := by
  simp (disch := decide) only [validate, stage_eq_ok_iff]
  simp [oversized_iff, Nat.one_le_iff_ne_zero]

/-- A change of bits that a mask leaves out keeps every bit of the mask. -/
theorem getLsbD_xor_of_and_eq_zero {b m k : Byte} (h : m &&& k = 0#8) {i : Nat} (hi : k.getLsbD i = true) :
    (b ^^^ m).getLsbD i = b.getLsbD i := by
  have hm : m.getLsbD i = false := by simpa [hi] using congrArg (BitVec.getLsbD · i) h
  rw [BitVec.getLsbD_xor, hm, Bool.xor_false]

/-- Settles O13: the stages read flags bits 0 and 1, which stay, and the checksum, which is recomputed. -/
theorem unusedFlagBitsAccepted : Obligations.UnusedFlagBitsAccepted := by
  unfold Obligations.UnusedFlagBitsAccepted
  intro p m s hm h
  rw [exec_validate_ok_iff, validate_eq_ok_iff] at h ⊢
  obtain ⟨hversion, hid, htotal, hindex, hsize, hfull, hsom, heom, -⟩ := h
  have hkept {i : Nat} (hi : (0x03#8).getLsbD i = true) : (p.flags ^^^ m).getLsbD i = p.flags.getLsbD i :=
    getLsbD_xor_of_and_eq_zero hm hi
  have hsom' : somFlag (finalized { p with flags := p.flags ^^^ m }) = somFlag p := hkept (by decide)
  have heom' : eomFlag (finalized { p with flags := p.flags ^^^ m }) = eomFlag p := hkept (by decide)
  exact ⟨hversion, hid, htotal, hindex, hsize, hfull, hsom'.trans hsom, heom'.trans heom, checksumMatches_finalized _⟩

end Sys2Proof.Machine
end

section
/-! The responses R70 and R71 let each command give. -/

namespace Sys2Proof.Machine

/-- The command answers in this state, with a response of its own (R70, R71). -/
def givesTypedAnswer (i : Instr) (s : State) : Prop :=
  ∃ r t, exec i s = .next { s with sessions := t, responses := s.responses ++ [r] } ∧ answerFits s.params i r

theorem givesTypedAnswer_of_reply {i : Instr} {s : State} {st : Status} {r : Result} (h : exec i s = reply st r s)
    (hfits : answerFits s.params i ⟨st, r⟩) : givesTypedAnswer i s :=
  ⟨⟨st, r⟩, s.sessions, h, hfits⟩

/-- A command that tests the packet's size first (R104, R105, R106, R181) needs its result typed for the packets that pass. -/
theorem givesTypedAnswer_of_sizeTest {i : Instr} {s : State} {p : Packet} {r : Result}
    (h : exec i s = if oversized s.params p then raise .invalidPayloadSize s else reply .ok r s)
    (hok : p.payloadSize.toNat ≤ s.params.N → answerFits s.params i ⟨.ok, r⟩)
    (hfail : answerFits s.params i ⟨.invalidPayloadSize, .absent⟩) : givesTypedAnswer i s := by
  by_cases hover : oversized s.params p = true
  · rw [if_pos hover] at h
    exact givesTypedAnswer_of_reply h hfail
  · rw [if_neg hover] at h
    exact givesTypedAnswer_of_reply h (hok (Nat.le_of_not_lt fun hlt => hover ((oversized_iff _ _).2 hlt)))

/-- The packet PARSE assembles has a full slot (R62). -/
theorem wireDecode_sized {c : Params} {raw : Bytes} (h : c.maxPacketSize ≤ raw.length) :
    (wireDecode c raw).sized c = true := by
  have := c.N_add
  rw [Packet.sized_iff, wireDecode, slice, List.length_take, List.length_drop]
  omega

/-- Every chunk has a full slot: its bytes and its padding make N (R162, R164). -/
theorem chunk_sized (c : Params) (buf : Bytes) (startingMessageId : U16) (i : Nat) :
    (chunk c buf startingMessageId i).sized c = true := by
  rw [Packet.sized_iff]
  simp only [chunk, finalized, slice, chunkSize, List.length_append, List.length_take, List.length_drop,
    List.length_replicate]
  omega

theorem chunks_length (c : Params) (buf : Bytes) (startingMessageId : U16) :
    (chunks c buf startingMessageId).length = chunkCount c buf.length := by
  rw [chunks, List.length_map, List.length_range]

theorem chunks_sized {c : Params} {buf : Bytes} {startingMessageId : U16} :
    ∀ q ∈ chunks c buf startingMessageId, q.sized c = true :=
  List.forall_mem_map.2 fun i _ => chunk_sized c buf startingMessageId i

theorem validPayload_length {c : Params} {p : Packet} (hsized : p.sized c = true) (h : p.payloadSize.toNat ≤ c.N) :
    (validPayload p).length = p.payloadSize.toNat := by
  rw [Packet.sized_iff] at hsized
  rw [validPayload, List.length_take, hsized, min_eq_left h]

theorem givesTypedAnswer_parse (raw : Bytes) (s : State) : givesTypedAnswer (.parse raw) s := by
  by_cases hshort : raw.length < s.params.maxPacketSize
  · exact givesTypedAnswer_of_reply (exec_parse_of_short hshort) (.inr (.inl rfl))
  · have hlong : s.params.maxPacketSize ≤ raw.length := Nat.le_of_not_lt hshort
    refine givesTypedAnswer_of_reply (exec_parse_of_long hlong) ?_
    rcases validate_ok_or_code s.params (wireDecode s.params raw) with hok | hcode
    · rw [if_pos hok, hok]
      exact .inl ⟨_, wireDecode_sized hlong, rfl⟩
    · have hne : validate s.params (wireDecode s.params raw) ≠ .ok := fun hok => by
        rw [hok] at hcode
        exact absurd hcode (by decide)
      rw [if_neg hne]
      exact .inr (.inr ⟨_, hcode, rfl⟩)

theorem givesTypedAnswer_split (buf : Bytes) (startingMessageId : U16) (s : State) :
    givesTypedAnswer (.split buf startingMessageId) s := by
  rcases Nat.lt_or_ge (255 * s.params.N) buf.length with hlong | hfits
  · exact givesTypedAnswer_of_reply (exec_split_of_long hlong _) (.inr rfl)
  · rcases Nat.eq_zero_or_pos buf.length with hzero | hpos
    · obtain rfl := List.length_eq_zero_iff.1 hzero
      exact givesTypedAnswer_of_reply (exec_split_nil _ s) (.inl ⟨[], Nat.zero_le _, List.forall_mem_nil _, rfl⟩)
    · obtain ⟨-, hcount, -, -⟩ := chunkCount_bounds s.params buf.length hpos hfits
      exact givesTypedAnswer_of_reply (exec_split_of_fits hpos hfits _)
        (.inl ⟨_, (chunks_length _ _ _).trans_le hcount, chunks_sized, rfl⟩)

/-- Delivery answers Complete with the data, or one of PROCESS's statuses without (R195 to R199). -/
theorem deliver_answerFits (c : Params) (p : Packet) (nowMs : Time) (v : Session) (t : Table) :
    answerFits c (.process p nowMs) (deliver p v t).1 := by
  rcases deliver_cases p v t with ⟨-, heq⟩ | ⟨-, -, heq⟩ | ⟨-, -, -, heq⟩ | ⟨-, -, -, heq⟩
  all_goals rw [heq]
  · exact .inr ⟨.indexBeyondSession, by decide, rfl⟩
  · exact .inr ⟨.duplicate, by decide, rfl⟩
  · exact .inl ⟨_, rfl⟩
  · exact .inr ⟨.stored, by decide, rfl⟩

theorem processPacket_answerFits (c : Params) (p : Packet) (nowMs : Time) (t : Table) :
    answerFits c (.process p nowMs) (processPacket c p nowMs t).1 := by
  rcases processPacket_cases c p nowMs t with ⟨hinvalid, heq⟩ | ⟨-, -, -, heq⟩ | ⟨-, -, -, heq⟩ | ⟨v, -, -, heq⟩
  all_goals rw [heq]
  · have hcode := (validate_ok_or_code c p).resolve_left hinvalid
    exact .inr ⟨_, List.mem_append_right _ hcode, rfl⟩
  · exact .inr ⟨.capacityExceeded, by decide, rfl⟩
  · exact deliver_answerFits c p nowMs _ t
  · exact deliver_answerFits c p nowMs v t

/-- Settles O45: a command answers what it tests for (its size, its length, its verdict), and the results of a sized packet
have the lengths R71 types. -/
theorem everyAnswerIsTyped : Obligations.EveryAnswerIsTyped := by
  unfold Obligations.EveryAnswerIsTyped
  intro i s hwf
  show givesTypedAnswer i s
  cases i with
  | crc16 p => exact givesTypedAnswer_of_sizeTest rfl (fun _ => .inl ⟨_, rfl⟩) (.inr rfl)
  | finalize p => exact givesTypedAnswer_of_sizeTest rfl (fun _ => .inl ⟨finalized p, hwf, rfl⟩) (.inr rfl)
  | verify p =>
    refine givesTypedAnswer_of_sizeTest rfl (fun _ => ?_) (.inr (.inr rfl))
    cases checksumMatches p with
    | true => exact .inl rfl
    | false => exact .inr (.inl rfl)
  | validate p =>
    refine givesTypedAnswer_of_reply (exec_validate_eq p s) ?_
    rcases validate_ok_or_code s.params p with hok | hcode
    · exact .inl (by rw [hok])
    · exact .inr ⟨_, hcode, rfl⟩
  | encode p => exact givesTypedAnswer_of_reply rfl ⟨_, wireEncode_length hwf, rfl⟩
  | parse raw => exact givesTypedAnswer_parse raw s
  | split buf startingMessageId => exact givesTypedAnswer_split buf startingMessageId s
  | extract p =>
    exact givesTypedAnswer_of_sizeTest rfl (fun hle => .inl ⟨_, validPayload_length hwf hle, rfl⟩) (.inr rfl)
  | process p nowMs =>
    exact ⟨_, _, exec_process_eq p nowMs s, processPacket_answerFits s.params p nowMs s.sessions⟩
  | prune nowMs timeoutMs => exact ⟨_, _, exec_prune_eq nowMs timeoutMs s, rfl⟩
  | reset => exact ⟨_, _, exec_reset_eq s, rfl⟩

end Sys2Proof.Machine
end

section
/-! The host-side sequences RECEIVE and SEND (R73). -/

namespace Sys2Proof.Machine

/-- PARSE touches no session (R20). -/
theorem exec_parse_keeps_sessions {raw : Bytes} {s t : State} (h : exec (.parse raw) s = .next t) :
    t.sessions = s.sessions := by
  obtain ⟨r, hexec⟩ := answersFromParams_parse raw
  cases (hexec s).symm.trans h
  rfl

/-- When PARSE returns no packet RECEIVE yields its response. -/
theorem receive_of_parse_failure {raw : Bytes} {s t : State} {st : Status}
    (h : issue (.parse raw) s = some (⟨st, .absent⟩, t)) (nowMs : Time) :
    receive raw nowMs s = some (⟨st, .absent⟩, t) := by
  simp [receive, h]

/-- When PARSE returns a packet RECEIVE goes on to PROCESS it. -/
theorem receive_of_parse_packet {raw : Bytes} {s t : State} {p : Packet}
    (h : issue (.parse raw) s = some (⟨.ok, .packet p⟩, t)) (nowMs : Time) :
    receive raw nowMs s = issue (.process p nowMs) t := by
  simp [receive, h]

/-- Settles O53: the two ways RECEIVE goes on from PARSE's response. -/
theorem receiveIsParseThenProcess : Obligations.ReceiveIsParseThenProcess := by
  unfold Obligations.ReceiveIsParseThenProcess
  refine fun raw nowMs s t h => ⟨fun st _ hr => ?failure, fun p hr => ?packet⟩
  case failure =>
    exact ⟨receive_of_parse_failure (issue_of_exec h hr) nowMs, exec_parse_keeps_sessions h⟩
  case packet =>
    have hprocess := exec_process_eq p nowMs t
    exact ⟨_, _, hprocess, rfl, (receive_of_parse_packet (issue_of_exec h hr) nowMs).trans (issue_of_exec hprocess rfl)⟩

/-- The responses to one ENCODE of each packet, in order (R140). -/
theorem encodeEach_eq (ps : List Packet) (s : State) :
    encodeEach ps s = some (ps.map wireEncode,
      { s with responses := s.responses ++ ps.map fun q => ⟨.ok, .image (wireEncode q)⟩ }) := by
  induction ps generalizing s with
  | nil => simp [encodeEach]
  | cons p ps ih =>
    have hissue := issue_of_exec (exec_encode_eq p s) rfl
    simp [encodeEach, hissue, ih]

/-- Settles O54: SPLIT's response decides, and the ENCODEs of its packets are `encodeEach_eq`. -/
theorem sendIsSplitThenEncodes : Obligations.SendIsSplitThenEncodes := by
  unfold Obligations.SendIsSplitThenEncodes
  refine fun buf id s => ⟨fun ps h => ?packets, fun hlong => ?tooLong⟩
  case packets =>
    have hissue := issue_of_exec h rfl
    simp [send, hissue, encodeEach_eq]
  case tooLong =>
    have hissue := issue_of_exec (exec_split_of_long hlong id) rfl
    simp [send, hissue]

end Sys2Proof.Machine
end

section
/-! The CRC register: its recurrence (R100), and that a change of one byte of a sequence changes its CRC (R108). -/

namespace Sys2Proof.Machine

/-- The bit shifted out is the parity of the register (R100). -/
theorem crcShift_eq (r : U16) : crcShift r = if r.toNat % 2 = 1 then (r >>> 1) ^^^ 0xA001#16 else r >>> 1 := by
  have hbit : r.getLsbD 0 = true ↔ r.toNat % 2 = 1 := by simp [BitVec.getLsbD, Nat.testBit_zero]
  simp only [crcShift, hbit]

theorem crcByte_eq_foldl (r : U16) (b : Byte) :
    crcByte r b = (List.range 8).foldl (fun c _ => crcShift c) (r ^^^ b.setWidth 16) := by
  rw [List.foldl_const, List.length_range]
  rfl

theorem crc16_concat (m : Bytes) (b : Byte) : crc16 (m ++ [b]) = crcByte (crc16 m) b :=
  crc16_append m [b]

/-- Settles O1: one more byte is one more `crcByte`. -/
theorem crc16RegisterRecurrence : Obligations.Crc16RegisterRecurrence := by
  unfold Obligations.Crc16RegisterRecurrence
  refine ⟨rfl, fun m b => ?_, by decide +kernel⟩
  rw [crc16_concat, crcByte_eq_foldl]
  simp only [crcShift_eq]

/-- Bytes that follow never bring two different registers together. -/
theorem foldl_crcByte_injective (m : Bytes) : Function.Injective fun r : U16 => m.foldl crcByte r := by
  induction m with
  | nil => exact Function.injective_id
  | cons b m ih => exact ih.comp (crcByte_register_injective b)

/-- Another byte at one place of a sequence gives another CRC: the registers part at that byte and never meet again. -/
theorem crc16_set_ne {m : Bytes} {k : Nat} {b b' : Byte} (hk : m[k]? = some b) (hne : b' ≠ b) :
    crc16 (m.set k b') ≠ crc16 m := by
  obtain ⟨hlt, rfl⟩ := List.getElem?_eq_some_iff.1 hk
  have hset : m.set k b' = m.take k ++ b' :: m.drop (k + 1) := by
    rw [List.set_eq_take_append_cons_drop, if_pos hlt]
  have hsplit : m = m.take k ++ m[k] :: m.drop (k + 1) := by
    rw [List.getElem_cons_drop, List.take_append_drop]
  intro h
  rw [hset, hsplit, crc16_append, crc16_append, ← hsplit] at h
  exact hne (crcByte_byte_injective _ (foldl_crcByte_injective _ h))

theorem xor_bit_ne_self (b : Byte) {j : Nat} (hj : j < 8) : b ^^^ (1#8 <<< j) ≠ b := by
  intro h
  have hbit := congrArg (BitVec.getLsbD · j) h
  simp [hj] at hbit

/-- Settles O9: a flipped bit makes another byte, and `crc16_set_ne`. No remainder is evaluated, and neither the sizes nor
the bound N is used. -/
theorem singleBitFlipChangesCrc : Obligations.SingleBitFlipChangesCrc := by
  unfold Obligations.SingleBitFlipChangesCrc
  rintro c p q - - - - ⟨k, j, b, hj, hk, hscope⟩
  rw [hscope]
  exact crc16_set_ne hk (xor_bit_ne_self b hj)

end Sys2Proof.Machine
end

section
/-! The header and the CRC scope as bytes of the wire image (R102, R103). -/

namespace Sys2Proof.Machine

theorem leBytes16_eq_ofNat (v : U16) :
    leBytes16 v = [BitVec.ofNat 8 (v.toNat % 256), BitVec.ofNat 8 (v.toNat / 256)] := by
  have hlow : v.setWidth 8 = BitVec.ofNat 8 (v.toNat % 256) := BitVec.eq_of_toNat_eq (by simp)
  have hhigh : (v >>> 8).setWidth 8 = BitVec.ofNat 8 (v.toNat / 256) :=
    BitVec.eq_of_toNat_eq (by simp [Nat.shiftRight_eq_div_pow])
  rw [leBytes16, hlow, hhigh]

/-- Settles O2: the two bytes of messageId are numbers by `leBytes16_eq_ofNat`. -/
theorem headerBytesInWireOrder : Obligations.HeaderBytesInWireOrder := by
  unfold Obligations.HeaderBytesInWireOrder
  refine fun p => ⟨?_, rfl⟩
  rw [headerBytes, leBytes16_eq_ofNat]
  rfl

/-- The first 7 + payloadSize bytes of the image end inside the payload slot (R60, R103). -/
theorem wireEncode_take_eq_crcScope {p : Packet} (h : p.payloadSize.toNat ≤ p.payload.length) :
    (wireEncode p).take (7 + p.payloadSize.toNat) = crcScope p := by
  rw [wireEncode, List.append_assoc, ← headerBytes_length p, List.take_length_add_append,
    List.take_append_of_le_length h]
  rfl

/-- Settles O3: a sized packet's slot holds payloadSize bytes. -/
theorem crcScopeIsWireBytes : Obligations.CrcScopeIsWireBytes := by
  unfold Obligations.CrcScopeIsWireBytes
  refine fun c p hsized hle => ⟨?wire, ?length, fun _ => rfl⟩
  case wire =>
    have hslot : p.payloadSize.toNat ≤ p.payload.length := by rwa [(Packet.sized_iff c p).1 hsized]
    exact (wireEncode_take_eq_crcScope hslot).symm
  case length => rw [crcScope, List.length_append, headerBytes_length, validPayload_length hsized hle]

end Sys2Proof.Machine
end

section
/-! What CRC16, FINALIZE, VERIFY and EXTRACT do to the state: each tests the packet's size first. -/

namespace Sys2Proof.Machine

/-- A packet whose size fits the slot passes the size test. -/
theorem sizeTest_of_fits {p : Packet} {s : State} (h : p.payloadSize.toNat ≤ s.params.N) (r : Result) :
    (if oversized s.params p then raise .invalidPayloadSize s else reply .ok r s) =
      .next { s with responses := s.responses ++ [⟨.ok, r⟩] } := by
  have hfits : ¬ oversized s.params p = true := fun hover => Nat.not_lt.2 h ((oversized_iff _ _).1 hover)
  rw [if_neg hfits, reply_eq]

/-- A packet whose size runs past the slot fails the size test. -/
theorem sizeTest_of_oversized {p : Packet} {s : State} (h : s.params.N < p.payloadSize.toNat) (r : Result) :
    (if oversized s.params p then raise .invalidPayloadSize s else reply .ok r s) =
      .next { s with responses := s.responses ++ [⟨.invalidPayloadSize, .absent⟩] } := by
  rw [if_pos ((oversized_iff _ _).2 h), raise_eq]

section
variable {p : Packet} {s : State}

theorem exec_crc16_of_fits (h : p.payloadSize.toNat ≤ s.params.N) :
    exec (.crc16 p) s = .next { s with responses := s.responses ++ [⟨.ok, .crc (crc16 (crcScope p))⟩] } :=
  sizeTest_of_fits h _

theorem exec_crc16_of_oversized (h : s.params.N < p.payloadSize.toNat) :
    exec (.crc16 p) s = .next { s with responses := s.responses ++ [⟨.invalidPayloadSize, .absent⟩] } :=
  sizeTest_of_oversized h _

theorem exec_finalize_of_fits (h : p.payloadSize.toNat ≤ s.params.N) :
    exec (.finalize p) s = .next { s with responses := s.responses ++ [⟨.ok, .packet (finalized p)⟩] } :=
  sizeTest_of_fits h _

theorem exec_finalize_of_oversized (h : s.params.N < p.payloadSize.toNat) :
    exec (.finalize p) s = .next { s with responses := s.responses ++ [⟨.invalidPayloadSize, .absent⟩] } :=
  sizeTest_of_oversized h _

theorem exec_verify_of_fits (h : p.payloadSize.toNat ≤ s.params.N) :
    exec (.verify p) s =
      .next { s with responses := s.responses ++ [⟨.ok, .matched (if checksumMatches p then 1 else 0)⟩] } :=
  sizeTest_of_fits h _

theorem exec_verify_of_oversized (h : s.params.N < p.payloadSize.toNat) :
    exec (.verify p) s = .next { s with responses := s.responses ++ [⟨.invalidPayloadSize, .absent⟩] } :=
  sizeTest_of_oversized h _

theorem exec_extract_of_fits (h : p.payloadSize.toNat ≤ s.params.N) :
    exec (.extract p) s = .next { s with responses := s.responses ++ [⟨.ok, .data (validPayload p)⟩] } :=
  sizeTest_of_fits h _

end

/-- The checksum field holds the CRC of the scope (R106). -/
theorem checksumMatches_iff (p : Packet) : checksumMatches p = true ↔ crc16 (crcScope p) = p.checksum :=
  beq_iff_eq

/-- Settles O4: the scope does not hold the checksum field. -/
theorem crc16CommandAnswers : Obligations.Crc16CommandAnswers := by
  unfold Obligations.Crc16CommandAnswers
  exact ⟨by decide, fun p s => ⟨exec_crc16_of_fits, exec_crc16_of_oversized, fun _ => rfl⟩⟩

/-- Settles O5, one equation per outcome of the size test. -/
theorem finalizeCommandAnswers : Obligations.FinalizeCommandAnswers := by
  unfold Obligations.FinalizeCommandAnswers
  exact ⟨by decide, fun p s => ⟨exec_finalize_of_fits, exec_finalize_of_oversized⟩⟩

/-- Settles O7: the size test, then a split on whether the checksum matches. -/
theorem verifyCommandAnswers : Obligations.VerifyCommandAnswers := by
  unfold Obligations.VerifyCommandAnswers
  refine ⟨by decide, fun p s => ⟨fun hle hmatch => ?matching, fun hle hdiffer => ?differing, exec_verify_of_oversized⟩⟩
  case matching => rw [exec_verify_of_fits hle, if_pos ((checksumMatches_iff p).2 hmatch)]
  case differing => rw [exec_verify_of_fits hle, if_neg fun h => hdiffer ((checksumMatches_iff p).1 h)]

theorem finalized_finalized (p : Packet) : finalized (finalized p) = finalized p := rfl

/-- A packet that FINALIZE answers is the finalized operand, whose size fits (R105). -/
theorem of_exec_finalize_packet {p q : Packet} {s t : State} (h : exec (.finalize p) s = .next t)
    (hr : t.responses = s.responses ++ [⟨.ok, .packet q⟩]) :
    p.payloadSize.toNat ≤ s.params.N ∧ q = finalized p ∧ t.params = s.params := by
  rcases Nat.lt_or_ge s.params.N p.payloadSize.toNat with hover | hle
  · rw [exec_finalize_of_oversized hover] at h
    cases h
    cases List.append_cancel_left hr
  · rw [exec_finalize_of_fits hle] at h
    cases h
    cases List.append_cancel_left hr
    exact ⟨hle, rfl, rfl⟩

/-- Settles O6: the second FINALIZE meets the same size and the same scope. -/
theorem finalizeIsIdempotent : Obligations.FinalizeIsIdempotent := by
  unfold Obligations.FinalizeIsIdempotent
  intro p q s t h hr
  obtain ⟨hle, rfl, hparams⟩ := of_exec_finalize_packet h hr
  have hle' : (finalized p).payloadSize.toNat ≤ t.params.N := hparams.symm ▸ hle
  rw [exec_finalize_of_fits hle', finalized_finalized]

end Sys2Proof.Machine
end

section
/-! What the padding does not touch (R107, R131, R180), and the payloadSize flip that no check finds (R109). -/

namespace Sys2Proof.Machine

section
variable {p : Packet} {pay : Bytes} (h : pay.take p.payloadSize.toNat = p.payload.take p.payloadSize.toNat)
include h

theorem validPayload_of_take_eq : validPayload { p with payload := pay } = validPayload p := h

theorem crcScope_of_take_eq : crcScope { p with payload := pay } = crcScope p :=
  congrArg (headerBytes p ++ ·) h

theorem checksumMatches_of_take_eq : checksumMatches { p with payload := pay } = checksumMatches p := by
  rw [checksumMatches, crcScope_of_take_eq h, checksumMatches]

/-- The validator reads the payload through the CRC alone (R131). -/
theorem validate_of_take_eq (c : Params) : validate c { p with payload := pay } = validate c p := by
  rw [validate, checksumMatches_of_take_eq h]
  rfl

end

/-- Settles O8: each command reads the payload through its valid bytes, which are the same. -/
theorem paddingNeverRead : Obligations.PaddingNeverRead := by
  unfold Obligations.PaddingNeverRead
  intro p pay s hle h
  have hle' : ({ p with payload := pay } : Packet).payloadSize.toNat ≤ s.params.N := hle
  refine ⟨?crc16, ?verify, ?validate, ?extract, crc16 (crcScope p), exec_finalize_of_fits hle, ?finalize⟩
  case crc16 => rw [exec_crc16_of_fits hle', exec_crc16_of_fits hle, crcScope_of_take_eq h]
  case verify => rw [exec_verify_of_fits hle', exec_verify_of_fits hle, checksumMatches_of_take_eq h]
  case validate => rw [exec_validate_eq, exec_validate_eq, validate_of_take_eq h]
  case extract => rw [exec_extract_of_fits hle', exec_extract_of_fits hle, validPayload_of_take_eq h]
  case finalize => rw [exec_finalize_of_fits hle', finalized, crcScope_of_take_eq h]

/-- R109's packet (N = 246), with the payloadSize field left open. -/
def sizeFlipPacket (size : Byte) : Packet :=
  ⟨0x1234, 1, 0, size, 0x03, 1, [0x48#8, 0x7D#8, 0x97#8] ++ List.replicate 243 0xFF#8, 0x6681⟩

theorem crc16_sizeFlipPacket_one : crc16 (crcScope (sizeFlipPacket 1)) = 0x6681 := by decide +kernel

theorem crc16_sizeFlipPacket_three : crc16 (crcScope (sizeFlipPacket 3)) = 0x6681 := by decide +kernel

/-- Only the size test and the checksum look at the payloadSize of a single-chunk packet (R121 to R129). -/
theorem validate_sizeFlipPacket {c : Params} {size : Byte} (hle : size.toNat ≤ c.N)
    (hcrc : crc16 (crcScope (sizeFlipPacket size)) = 0x6681) : validate c (sizeFlipPacket size) = .ok := by
  have hversion : (sizeFlipPacket size).protocolVersion = protocolVersion := rfl
  have hid : (sizeFlipPacket size).messageId ≠ 0 := show (0x1234 : U16) ≠ 0 by decide
  have htotal : 1 ≤ (sizeFlipPacket size).totalChunks.toNat := show 1 ≤ (1 : Byte).toNat by decide
  have hindex : (sizeFlipPacket size).chunkIndex.toNat < (sizeFlipPacket size).totalChunks.toNat :=
    show (0 : Byte).toNat < (1 : Byte).toNat by decide
  have hfinal : isFinalChunk (sizeFlipPacket size) = true := show ((0 : Byte) == 1 - 1) = true by decide
  have hsom : somFlag (sizeFlipPacket size) = true := show (0x03 : Byte).getLsbD 0 = true by decide
  have heom : eomFlag (sizeFlipPacket size) = true := show (0x03 : Byte).getLsbD 1 = true by decide
  have hmatch : checksumMatches (sizeFlipPacket size) = true := (checksumMatches_iff _).2 hcrc
  exact (validate_eq_ok_iff _ _).2 ⟨hversion, hid, htotal, hindex, hle, fun h => absurd hfinal (by simp [h]), hsom,
    heom.trans hfinal.symm, hmatch⟩

/-- Settles O10: both sizes pass the size test, and the two scopes have one CRC. -/
theorem sizeFlipPassesUndetected : Obligations.SizeFlipPassesUndetected := by
  unfold Obligations.SizeFlipPassesUndetected
  intro s hP
  have hN : s.params.N = 246 := by
    have := s.params.N_add
    omega
  have hone : (sizeFlipPacket 1).payloadSize.toNat ≤ s.params.N := by rw [hN]; decide
  have hthree : (sizeFlipPacket 3).payloadSize.toNat ≤ s.params.N := by rw [hN]; decide
  exact ⟨sizeFlipPacket 1, sizeFlipPacket 3, rfl, rfl,
    (exec_validate_ok_iff _ s).2 (validate_sizeFlipPacket hone crc16_sizeFlipPacket_one),
    (exec_validate_ok_iff _ s).2 (validate_sizeFlipPacket hthree crc16_sizeFlipPacket_three),
    crc16_sizeFlipPacket_three, exec_extract_of_fits hone, exec_extract_of_fits hthree⟩

end Sys2Proof.Machine
end

section
/-! The verdict as the status of the first failing stage (R120 to R129), and what a packet of verdict OK has (R132). -/

namespace Sys2Proof.Machine

/-- The status `v` is that of the first stage whose demand fails, and OK when every demand holds (R120). -/
def IsVerdict : List (Prop × Status) → Status → Prop
  | [], v => v = .ok
  | (demand, st) :: rest, v => (demand → IsVerdict rest v) ∧ (¬ demand → v = st)

/-- The verdict is the status of a stage that fails when every stage before it holds. -/
theorem IsVerdict.eq_of_first_failing {stages : List (Prop × Status)} {v st : Status} {demand : Prop} {k : Nat}
    (hv : IsVerdict stages v) (hk : stages[k]? = some (demand, st)) (hfails : ¬ demand)
    (hbefore : ∀ (j : Nat) (e : Prop × Status), j < k → stages[j]? = some e → e.1) : v = st := by
  induction stages generalizing k with
  | nil => cases hk
  | cons stage rest ih =>
    obtain ⟨hholds, hfirst⟩ := hv
    cases k with
    | zero =>
      cases hk
      exact hfirst hfails
    | succ k =>
      have hstage : stage.1 := hbefore 0 stage k.succ_pos rfl
      exact ih (hholds hstage) hk fun j e hj he => hbefore (j + 1) e (Nat.succ_lt_succ hj) he

/-- The verdict is OK when every stage holds. -/
theorem IsVerdict.eq_ok {stages : List (Prop × Status)} {v : Status} (hv : IsVerdict stages v)
    (hall : ∀ e ∈ stages, e.1) : v = .ok := by
  induction stages with
  | nil => exact hv
  | cons stage rest ih =>
    obtain ⟨hstage, hrest⟩ := List.forall_mem_cons.1 hall
    exact ih (hv.1 hstage) hrest

/-- One test of the validator before the verdict of the later stages, which may take the stage's demand as given. -/
theorem isVerdict_ite {fails demand : Prop} [Decidable fails] {st v : Status} {rest : List (Prop × Status)}
    (hfails : fails ↔ ¬ demand) (hrest : demand → IsVerdict rest v) :
    IsVerdict ((demand, st) :: rest) (if fails then st else v) := by
  by_cases h : fails
  · rw [if_pos h]
    exact ⟨fun hdemand => absurd hdemand (hfails.1 h), fun _ => rfl⟩
  · have hdemand : demand := not_not.1 (mt hfails.2 h)
    rw [if_neg h]
    exact ⟨hrest, absurd hdemand⟩

/-- Two tests differ when what they say is not equivalent. -/
theorem bne_iff_not_iff {a b : Bool} {P Q : Prop} (ha : a = true ↔ P) (hb : b = true ↔ Q) :
    (a != b) = true ↔ ¬ (P ↔ Q) := by
  rw [bne_iff_ne, Ne, Bool.eq_iff_iff, ha, hb]

/-- The model's tests are the nine stages in their order; the u8 difference of the final chunk does not wrap past stage 3
(R121 to R129). -/
theorem isVerdict_validate (c : Params) (p : Packet) : IsVerdict (validationStages c p) (validate c p) := by
  unfold validate validationStages
  refine isVerdict_ite ?version fun _ => isVerdict_ite ?id fun _ => isVerdict_ite Nat.not_le.symm fun htotal => ?_
  case version => exact not_congr BitVec.toNat_inj.symm
  case id => exact BitVec.toNat_inj.symm.trans not_not.symm
  have hfinal := isFinalChunk_iff htotal
  refine isVerdict_ite Nat.not_lt.symm fun _ => isVerdict_ite ?size fun _ => isVerdict_ite ?full fun _ =>
    isVerdict_ite (bne_iff_not_iff (somFlag_iff p) ?first) fun _ =>
    isVerdict_ite (bne_iff_not_iff (eomFlag_iff p) hfinal) fun _ => isVerdict_ite ?checksum fun _ => rfl
  case size => exact (oversized_iff c p).trans Nat.not_le.symm
  case full => simp [← hfinal]
  case first => exact beq_iff_eq.trans BitVec.toNat_inj.symm
  case checksum =>
    rw [Bool.not_eq_true', ← Bool.not_eq_true, checksumMatches_iff]
    rfl

/-- Settles O11: the validator's answer is the verdict of the nine stages. -/
theorem firstFailingStageIsReported : Obligations.FirstFailingStageIsReported := by
  unfold Obligations.FirstFailingStageIsReported
  refine ⟨by decide, fun p s => ?_⟩
  have hverdict := isVerdict_validate s.params p
  rw [exec_validate_eq]
  refine ⟨fun k demand st hk hfails hbefore => ?failing, fun hall => ?holding⟩
  case failing => rw [hverdict.eq_of_first_failing hk hfails hbefore]
  case holding => rw [hverdict.eq_ok hall]

/-- Settles O12: the stages that an OK answer passes, the final chunk and the first in unsigned numbers. -/
theorem validatedPacketGuarantee : Obligations.ValidatedPacketGuarantee := by
  unfold Obligations.ValidatedPacketGuarantee
  intro p s h
  rw [exec_validate_ok_iff, validate_eq_ok_iff] at h
  obtain ⟨hversion, hid, htotal, hindex, hsize, hfull, hsom, heom, hmatch⟩ := h
  have hfinal := isFinalChunk_iff htotal
  refine ⟨hversion, hid, htotal, hindex, hsize, ?full, ?som, ?eom, ((checksumMatches_iff p).1 hmatch).symm⟩
  case full => exact (Bool.eq_false_or_eq_true (isFinalChunk p)).symm.imp hfull hfinal.1
  case som => exact (Bool.eq_iff_iff.1 hsom).trans beq_iff_eq
  case eom => exact (Bool.eq_iff_iff.1 heom).trans hfinal

end Sys2Proof.Machine
end

section
/-! One verdict for the three users of the validator (R130): PARSE of a packet's image sees that packet, and PROCESS of a
valid packet answers a status of its own. -/

namespace Sys2Proof.Machine

/-- Reading a u16 where its two bytes were laid down gives it back (R41). -/
theorem memRead16_append (before after : Bytes) (v : U16) :
    memRead16 (before ++ leBytes16 v ++ after) before.length = v := by
  have hbyte (i : Nat) : byteAt (before ++ leBytes16 v ++ after) (before.length + i) = byteAt (leBytes16 v ++ after) i := by
    rw [byteAt, byteAt, List.append_assoc, List.getD_append_right _ _ _ _ (Nat.le_add_right _ _), Nat.add_sub_cancel_left]
  rw [memRead16, hbyte 1, ← Nat.add_zero before.length, hbyte 0]
  exact join_leBytes16 v

/-- Decoding a sized packet's image gives the packet back (R143). -/
theorem wireDecode_wireEncode {c : Params} {p : Packet} (h : p.sized c = true) : wireDecode c (wireEncode p) = p := by
  rw [Packet.sized_iff] at h
  have hid : memRead16 (wireEncode p) 0 = p.messageId := memRead16_append [] _ _
  have hslot : slice (wireEncode p) 7 (7 + c.N) = p.payload := by
    rw [slice, Nat.add_sub_cancel_left, wireEncode, List.append_assoc, ← headerBytes_length p, List.drop_left, ← h,
      List.take_left]
  have hchecksum : memRead16 (wireEncode p) (7 + c.N) = p.checksum := by
    have hread := memRead16_append (headerBytes p ++ p.payload) [] p.checksum
    rwa [List.append_nil, List.length_append, headerBytes_length, h] at hread
  rw [wireDecode, hid, hslot, hchecksum]
  rfl

/-- PARSE of a sized packet's image (R144): the verdict on the packet, with the packet when it is OK. -/
theorem exec_parse_wireEncode {p : Packet} {s : State} (h : p.sized s.params = true) :
    exec (.parse (wireEncode p)) s = .next { s with responses := s.responses ++
      [⟨validate s.params p, if validate s.params p = .ok then .packet p else .absent⟩] } := by
  rw [exec_parse_of_long (wireEncode_length h).ge, wireDecode_wireEncode h]

/-- The statuses of PROCESS's own, for a packet that passes validation (R193 to R199). -/
def processStatuses : List Status := [.complete, .stored, .duplicate, .capacityExceeded, .indexBeyondSession]

theorem deliver_status_mem (p : Packet) (v : Session) (t : Table) : (deliver p v t).1.status ∈ processStatuses := by
  rcases deliver_cases p v t with ⟨-, heq⟩ | ⟨-, -, heq⟩ | ⟨-, -, -, heq⟩ | ⟨-, -, -, heq⟩
  all_goals
    rw [heq]
    simp [processStatuses]

/-- PROCESS of a packet that fails validation answers the verdict and keeps the table (R192). -/
theorem processPacket_of_invalid {c : Params} {p : Packet} (h : validate c p ≠ .ok) (nowMs : Time) (t : Table) :
    processPacket c p nowMs t = (⟨validate c p, .absent⟩, t) :=
  if_pos h

/-- PROCESS of a valid packet goes on to admission and delivery (R193 to R199). -/
theorem processPacket_status_mem {c : Params} {p : Packet} (h : validate c p = .ok) (nowMs : Time) (t : Table) :
    (processPacket c p nowMs t).1.status ∈ processStatuses := by
  rcases processPacket_cases c p nowMs t with ⟨hinvalid, -⟩ | ⟨-, -, -, heq⟩ | ⟨-, -, -, heq⟩ | ⟨v, -, -, heq⟩
  · exact absurd h hinvalid
  · rw [heq]
    simp [processStatuses]
  · rw [heq]
    exact deliver_status_mem p _ t
  · rw [heq]
    exact deliver_status_mem p v t

/-- Settles O14: the verdict is the validator's, which PARSE takes of the packet its image holds and PROCESS at entry. -/
theorem threeUsersGiveOneVerdict : Obligations.ThreeUsersGiveOneVerdict := by
  unfold Obligations.ThreeUsersGiveOneVerdict
  intro p nowMs s hsized
  rw [exec_parse_wireEncode hsized, exec_process_eq]
  refine ⟨validate s.params p, exec_validate_eq p s, fun hinvalid => ?invalid, fun hvalid => ?valid⟩
  case invalid =>
    rw [if_neg hinvalid, processPacket_of_invalid hinvalid]
    exact ⟨rfl, rfl⟩
  case valid =>
    rw [if_pos hvalid, hvalid]
    exact ⟨rfl, _, _, rfl, processPacket_status_mem hvalid nowMs s.sessions⟩

end Sys2Proof.Machine
end

section
/-! The wire image byte by byte: where ENCODE lays each field (R60, R140), and that the fields of R62 leave none of the
first P bytes out (R143). -/

namespace Sys2Proof.Machine

/-- The byte at the lower offset is the value mod 256 (R41). -/
theorem leBytes16_low (v : U16) : (leBytes16 v)[0]?.map BitVec.toNat = some (v.toNat % 256) :=
  congrArg some (BitVec.toNat_setWidth 8 v)

/-- The byte at the higher offset is the value div 256 (R41). -/
theorem leBytes16_high (v : U16) : (leBytes16 v)[1]?.map BitVec.toNat = some (v.toNat / 256) := by
  rw [leBytes16_eq_ofNat]
  have hbyte : v.toNat / 256 < 2 ^ 8 := by have := v.isLt; omega
  exact congrArg some ((BitVec.toNat_ofNat _ 8).trans (Nat.mod_eq_of_lt hbyte))

/-- The payload slot starts at offset 7 (R60). -/
theorem wireEncode_getElem?_payload {p : Packet} {k : Nat} (hk : k < p.payload.length) :
    (wireEncode p)[7 + k]? = p.payload[k]? := by
  rw [wireEncode, List.append_assoc, List.getElem?_append_right (Nat.le_add_right 7 k), headerBytes_length,
    Nat.add_sub_cancel_left, List.getElem?_append_left hk]

/-- The checksum follows the payload slot (R60). -/
theorem wireEncode_getElem?_checksum (p : Packet) (i : Nat) :
    (wireEncode p)[7 + p.payload.length + i]? = (leBytes16 p.checksum)[i]? := by
  have hbefore : (headerBytes p ++ p.payload).length = 7 + p.payload.length := List.length_append
  rw [wireEncode, ← hbefore, List.getElem?_append_right (Nat.le_add_right _ i), Nat.add_sub_cancel_left]

/-- Settles O15: the header's offsets compute, and `wireEncode_getElem?_payload` and `wireEncode_getElem?_checksum` place the
rest of the image. -/
theorem wireImageLayout : Obligations.WireImageLayout := by
  unfold Obligations.WireImageLayout
  refine ⟨by decide, fun p s hsized => ?_⟩
  have hN : p.payload.length = s.params.N := (Packet.sized_iff _ _).1 hsized
  refine ⟨wireEncode p, exec_encode_eq p s, wireEncode_length hsized, leBytes16_low p.messageId,
    leBytes16_high p.messageId, rfl, rfl, rfl, rfl, rfl, fun k hk => ?payload, ?low, ?high⟩
  case payload => exact wireEncode_getElem?_payload (hN.symm ▸ hk)
  case low =>
    rw [← hN, ← leBytes16_low]
    exact congrArg (Option.map BitVec.toNat) (wireEncode_getElem?_checksum p 0)
  case high =>
    rw [← hN, ← leBytes16_high, Nat.add_right_comm 7 1]
    exact congrArg (Option.map BitVec.toNat) (wireEncode_getElem?_checksum p 1)

/-- Consecutive bytes inside a sequence, read one by one, are its slice (R13). -/
theorem map_byteAt_range {b : Bytes} {off k : Nat} (h : off + k ≤ b.length) :
    (List.range k).map (fun i => byteAt b (off + i)) = (b.drop off).take k := by
  refine List.ext_getElem ?length fun i hi _ => ?byte
  case length =>
    rw [List.length_map, List.length_range, List.length_take, List.length_drop]
    omega
  case byte =>
    have hinside : off + i < b.length := by
      rw [List.length_map, List.length_range] at hi
      omega
    simp [byteAt, hinside]

/-- Encoding the packet that the first P bytes hold gives those bytes back (R143): header, payload slot and checksum are
consecutive and end at P. -/
theorem wireEncode_wireDecode {c : Params} {raw : Bytes} (h : c.maxPacketSize ≤ raw.length) :
    wireEncode (wireDecode c raw) = raw.take c.maxPacketSize := by
  have hP := c.N_add
  have hheader : headerBytes (wireDecode c raw) = raw.take 7 :=
    calc headerBytes (wireDecode c raw)
        = leBytes16 (memRead16 raw 0) ++ [2, 3, 4, 5, 6].map (byteAt raw) := rfl
      _ = [0, 1].map (byteAt raw) ++ [2, 3, 4, 5, 6].map (byteAt raw) := by rw [memRead16, leBytes16_join]; rfl
      _ = (List.range 7).map fun i => byteAt raw (0 + i) := by simp [List.range_succ]
      _ = raw.take 7 := map_byteAt_range (by omega)
  have hpayload : (wireDecode c raw).payload = (raw.drop 7).take c.N := by
    rw [wireDecode, slice, Nat.add_sub_cancel_left]
  have hchecksum : leBytes16 (wireDecode c raw).checksum = (raw.drop (7 + c.N)).take 2 :=
    calc leBytes16 (wireDecode c raw).checksum
        = (List.range 2).map fun i => byteAt raw (7 + c.N + i) := leBytes16_join _ _
      _ = (raw.drop (7 + c.N)).take 2 := map_byteAt_range (by omega)
  calc wireEncode (wireDecode c raw)
      = raw.take 7 ++ (raw.drop 7).take c.N ++ (raw.drop (7 + c.N)).take 2 := by
        rw [wireEncode, hheader, hpayload, hchecksum]
    _ = raw.take (7 + c.N + 2) := by rw [← List.take_add, ← List.take_add]
    _ = raw.take c.maxPacketSize := by rw [← hP, Nat.add_right_comm 7, Nat.add_comm (7 + 2)]

/-- Settles O16: `wireDecode_wireEncode` one way, and the other way the first P of P bytes are all of them. -/
theorem wireFormatRoundTrip : Obligations.WireFormatRoundTrip := by
  unfold Obligations.WireFormatRoundTrip
  refine fun c => ⟨fun p => wireDecode_wireEncode, fun w hw => ⟨wireDecode_sized hw.ge, ?_⟩⟩
  rw [wireEncode_wireDecode hw.ge, List.take_of_length_le hw.le]

end Sys2Proof.Machine
end

section
/-! What PARSE makes of a buffer: it reads the first P bytes alone (R146), and returns only a valid packet (R147). -/

namespace Sys2Proof.Machine

/-- Settles O18: both buffers are long enough, and their first P bytes are the same. -/
theorem parseIgnoresExcessBytes : Obligations.ParseIgnoresExcessBytes := by
  unfold Obligations.ParseIgnoresExcessBytes
  intro w extra s hw
  have hlong : s.params.maxPacketSize ≤ (w ++ extra).length := by
    rw [List.length_append]
    omega
  have hpacket : wireDecode s.params (w ++ extra) = wireDecode s.params w := by
    rw [← wireDecode_take, List.take_left' hw]
  rw [exec_parse_of_long hlong, exec_parse_of_long hw.ge, hpacket]

/-- When PARSE returns a packet, the buffer holds at least P bytes, and the packet is the one they hold, which is valid
(R144, R147). -/
theorem of_exec_parse_packet {raw : Bytes} {p : Packet} {s : State}
    (h : exec (.parse raw) s = .next { s with responses := s.responses ++ [⟨.ok, .packet p⟩] }) :
    s.params.maxPacketSize ≤ raw.length ∧ p = wireDecode s.params raw ∧ validate s.params p = .ok := by
  rcases Nat.lt_or_ge raw.length s.params.maxPacketSize with hshort | hlong
  · rw [exec_parse_of_short hshort] at h
    simp at h
  · rw [exec_parse_of_long hlong] at h
    by_cases hv : validate s.params (wireDecode s.params raw) = .ok
    · simp only [hv, if_true, Host.Outcome.next.injEq, State.mk.injEq, List.append_cancel_left_eq, List.cons.injEq,
        Response.mk.injEq, Result.packet.injEq, true_and, and_true] at h
      exact ⟨hlong, h.symm, h ▸ hv⟩
    · simp [hv] at h

/-- Settles O19: the packet is what the first P bytes hold, and encoding gives them back. -/
theorem parsedPacketIsFaithful : Obligations.ParsedPacketIsFaithful := by
  unfold Obligations.ParsedPacketIsFaithful
  intro raw p s h
  obtain ⟨hlong, rfl, hvalid⟩ := of_exec_parse_packet h
  exact ⟨wireDecode_sized hlong, hvalid, wireEncode_wireDecode hlong⟩

end Sys2Proof.Machine
end

section
/-! The chunks of a message: each field of a chunk in unsigned numbers (R160 to R164), and the verdict on a chunk (R167). -/

namespace Sys2Proof.Machine

/-- Flags bits of a chunk, with the last index named by its successor: the count is not 0 (R163). -/
theorem chunkFlags_eq {total : Nat} (h : 1 ≤ total) (i : Nat) :
    chunkFlags i total = (if i = 0 then 0x01#8 else 0x00#8) ||| (if i + 1 = total then 0x02#8 else 0x00#8) := by
  have hlast : i = total - 1 ↔ i + 1 = total := by omega
  simp only [chunkFlags, hlast]

/-- SOM is set on the first chunk (R163). -/
theorem chunkFlags_bit_zero (i total : Nat) : (chunkFlags i total).getLsbD 0 = true ↔ i = 0 := by
  rw [chunkFlags]
  split_ifs with hfirst hlast hlast <;> simp [hfirst]

/-- EOM is set on the last chunk (R163). -/
theorem chunkFlags_bit_one {total : Nat} (h : 1 ≤ total) (i : Nat) :
    (chunkFlags i total).getLsbD 1 = true ↔ i + 1 = total := by
  rw [chunkFlags_eq h]
  split_ifs with hfirst hlast hlast <;> simp [hlast]

/-- Every chunk but the last is full (R162). -/
theorem chunkSize_of_not_last {c : Params} {len i : Nat} (h : i + 1 < chunkCount c len) : chunkSize c len i = c.N := by
  have hfull : (i + 2) * c.N ≤ len + c.N - 1 := (Nat.le_div_iff_mul_le c.N_pos).1 h
  rw [Nat.add_mul] at hfull
  exact min_eq_left (by omega)

section
variable (c : Params) (buf : Bytes) (startingMessageId : U16) (i : Nat)

/-- The size of a chunk fits its byte: N is at most 255 (R162). -/
theorem chunk_payloadSize_toNat :
    (chunk c buf startingMessageId i).payloadSize.toNat = chunkSize c buf.length i := by
  have hbyte : chunkSize c buf.length i < 2 ^ 8 := Nat.lt_succ_of_le ((min_le_left _ _).trans c.N_le)
  exact (BitVec.toNat_ofNat _ 8).trans (Nat.mod_eq_of_lt hbyte)

/-- A slice as long as the chunk is all that the buffer has of the slot's N bytes (R162, R164). -/
theorem chunk_payload :
    (chunk c buf startingMessageId i).payload =
      (buf.drop (i * c.N)).take c.N ++ List.replicate (c.N - chunkSize c buf.length i) paddingByte := by
  have hslice : slice buf (i * c.N) (i * c.N + chunkSize c buf.length i) = (buf.drop (i * c.N)).take c.N := by
    rw [slice, Nat.add_sub_cancel_left, chunkSize, ← List.length_drop, ← List.take_eq_take_min]
  rw [← hslice]
  rfl

/-- The valid bytes of a chunk are its slice of the buffer (R162). -/
theorem validPayload_chunk :
    validPayload (chunk c buf startingMessageId i) = (buf.drop (i * c.N)).take c.N := by
  have hlength : ((buf.drop (i * c.N)).take c.N).length = chunkSize c buf.length i := by
    rw [List.length_take, List.length_drop, chunkSize]
  rw [validPayload, chunk_payload, chunk_payloadSize_toNat, List.take_left' hlength]

end

section
variable {c : Params} {buf : Bytes} {i : Nat}

theorem chunk_totalChunks_toNat (hcount : chunkCount c buf.length ≤ 255) (startingMessageId : U16) :
    (chunk c buf startingMessageId i).totalChunks.toNat = chunkCount c buf.length :=
  (BitVec.toNat_ofNat _ 8).trans (Nat.mod_eq_of_lt (Nat.lt_succ_of_le hcount))

variable (hi : i < chunkCount c buf.length) (hcount : chunkCount c buf.length ≤ 255)
include hi hcount

theorem chunk_chunkIndex_toNat (startingMessageId : U16) : (chunk c buf startingMessageId i).chunkIndex.toNat = i :=
  (BitVec.toNat_ofNat _ 8).trans (Nat.mod_eq_of_lt ((hi.trans_le hcount).trans (Nat.lt_succ_self 255)))

theorem isFinalChunk_chunk (startingMessageId : U16) :
    isFinalChunk (chunk c buf startingMessageId i) = true ↔ i + 1 = chunkCount c buf.length := by
  have htotal := chunk_totalChunks_toNat (i := i) hcount startingMessageId
  rw [isFinalChunk_iff (by omega), htotal, chunk_chunkIndex_toNat hi hcount]

theorem somFlag_chunk (startingMessageId : U16) :
    somFlag (chunk c buf startingMessageId i) = ((chunk c buf startingMessageId i).chunkIndex == 0) := by
  have hflag : somFlag (chunk c buf startingMessageId i) = true ↔ i = 0 := chunkFlags_bit_zero i _
  rw [Bool.eq_iff_iff, hflag, beq_iff_eq, ← BitVec.toNat_inj, chunk_chunkIndex_toNat hi hcount]
  rfl

theorem eomFlag_chunk (startingMessageId : U16) :
    eomFlag (chunk c buf startingMessageId i) = isFinalChunk (chunk c buf startingMessageId i) := by
  have hflag : eomFlag (chunk c buf startingMessageId i) = true ↔ i + 1 = chunkCount c buf.length :=
    chunkFlags_bit_one (Nat.one_le_of_lt hi) i
  rw [Bool.eq_iff_iff, hflag, isFinalChunk_chunk hi hcount]

/-- A chunk passes every stage but, when the starting id is 0, the one for the id (R167). -/
theorem validate_chunk_eq_ok {startingMessageId : U16} (hid : startingMessageId ≠ 0) :
    validate c (chunk c buf startingMessageId i) = .ok := by
  have htotal := chunk_totalChunks_toNat (i := i) hcount startingMessageId
  have hindex := chunk_chunkIndex_toNat hi hcount startingMessageId
  have hsize := chunk_payloadSize_toNat c buf startingMessageId i
  rw [validate_eq_ok_iff]
  refine ⟨rfl, hid, by omega, by omega, ?size, fun hnotFinal => ?full, somFlag_chunk hi hcount _,
    eomFlag_chunk hi hcount _, checksumMatches_finalized _⟩
  case size => exact hsize.trans_le (min_le_left _ _)
  case full =>
    have hnotLast : i + 1 ≠ chunkCount c buf.length := fun hlast => by
      rw [(isFinalChunk_chunk hi hcount _).2 hlast] at hnotFinal
      cases hnotFinal
    exact hsize.trans (chunkSize_of_not_last (by omega))

end

/-- The id is tested right after the version (R121, R122). -/
theorem validate_of_id_zero {p : Packet} (hversion : p.protocolVersion = protocolVersion) (hid : p.messageId = 0)
    (c : Params) : validate c p = .invalidMessageId := by
  rw [validate, if_neg (not_not.2 hversion), if_pos hid]

end Sys2Proof.Machine
end

section
/-! What SPLIT answers: the chunks of the message in ascending order (R165), valid (R167), which together carry the buffer. -/

namespace Sys2Proof.Machine

/-- Packet `i` of the list is chunk `i` (R165). -/
theorem chunks_getElem?_eq_some_iff {c : Params} {buf : Bytes} {startingMessageId : U16} {i : Nat} {q : Packet} :
    (chunks c buf startingMessageId)[i]? = some q ↔
      i < chunkCount c buf.length ∧ chunk c buf startingMessageId i = q := by
  simp [chunks, List.getElem?_eq_some_iff]

/-- When SPLIT answers OK with packets, the buffer is empty and there are none, or it fits and they are its chunks
(R160, R166). -/
theorem of_exec_split_packets {buf : Bytes} {startingMessageId : U16} {ps : List Packet} {s : State}
    (h : exec (.split buf startingMessageId) s =
      .next { s with responses := s.responses ++ [⟨.ok, .packets ps⟩] }) :
    (buf = [] ∧ ps = []) ∨
      (1 ≤ buf.length ∧ buf.length ≤ 255 * s.params.N ∧ ps = chunks s.params buf startingMessageId) := by
  rcases Nat.lt_or_ge (255 * s.params.N) buf.length with hlong | hfits
  · rw [exec_split_of_long hlong] at h
    simp at h
  · rcases Nat.eq_zero_or_pos buf.length with hzero | hpos
    · obtain rfl := List.length_eq_zero_iff.1 hzero
      rw [exec_split_nil] at h
      exact .inl ⟨rfl, by simpa using h.symm⟩
    · rw [exec_split_of_fits hpos hfits] at h
      exact .inr ⟨hpos, hfits, by simpa using h.symm⟩

/-- Consecutive slices of `n` elements make up the front of the list. -/
theorem flatMap_range_slices {α : Type} (l : List α) (n k : Nat) :
    (List.range k).flatMap (fun i => (l.drop (i * n)).take n) = l.take (k * n) := by
  induction k with
  | zero => simp
  | succ k ih => rw [List.range_succ, List.flatMap_append, ih, List.flatMap_singleton, Nat.succ_mul, List.take_add]

/-- Settles O20: the three outcomes of SPLIT, and the fields of each chunk. -/
theorem splitCommandAnswers : Obligations.SplitCommandAnswers := by
  unfold Obligations.SplitCommandAnswers
  refine ⟨by decide, fun buf id s => ⟨fun hnil => hnil ▸ exec_split_nil id s, fun hlong => exec_split_of_long hlong id,
    fun hpos hfits => ?_⟩⟩
  obtain ⟨hone, hcount, -, -⟩ := chunkCount_bounds s.params buf.length hpos hfits
  refine ⟨chunks s.params buf id, exec_split_of_fits hpos hfits id, ?_⟩
  rw [chunks_length]
  refine ⟨rfl, hone, hcount, fun i q hq => ?_⟩
  obtain ⟨hi, rfl⟩ := chunks_getElem?_eq_some_iff.1 hq
  have hpayload := chunk_payload s.params buf id i
  rw [← chunk_payloadSize_toNat s.params buf id i] at hpayload
  exact ⟨rfl, chunk_totalChunks_toNat hcount id, chunk_chunkIndex_toNat hi hcount id,
    chunk_payloadSize_toNat s.params buf id i, chunkFlags_eq hone i, rfl,
    (Packet.sized_iff _ _).1 (chunk_sized s.params buf id i), hpayload, rfl⟩

/-- Settles O21: the slices are consecutive, and the chunks' slots reach the end of the buffer. -/
theorem splitPacketsCarryBuffer : Obligations.SplitPacketsCarryBuffer := by
  unfold Obligations.SplitPacketsCarryBuffer
  intro buf id ps s h
  rcases of_exec_split_packets h with ⟨rfl, rfl⟩ | ⟨hpos, hfits, rfl⟩
  · rfl
  · obtain ⟨-, -, -, hreach⟩ := chunkCount_bounds s.params buf.length hpos hfits
    calc (chunks s.params buf id).flatMap validPayload
        = (List.range (chunkCount s.params buf.length)).flatMap fun i => validPayload (chunk s.params buf id i) :=
          List.flatMap_map ..
      _ = buf.take (chunkCount s.params buf.length * s.params.N) := by
          simp only [validPayload_chunk, flatMap_range_slices]
      _ = buf := List.take_of_length_le hreach

/-- Settles O22: a packet of the answer is a chunk of a message that fits. -/
theorem splitPacketsValidate : Obligations.SplitPacketsValidate := by
  unfold Obligations.SplitPacketsValidate
  intro buf id ps s h q hq
  rcases of_exec_split_packets h with ⟨-, rfl⟩ | ⟨hpos, hfits, rfl⟩
  · cases hq
  · obtain ⟨-, hcount, -, -⟩ := chunkCount_bounds s.params buf.length hpos hfits
    obtain ⟨i, hchunk⟩ := List.mem_iff_getElem?.1 hq
    obtain ⟨hi, rfl⟩ := chunks_getElem?_eq_some_iff.1 hchunk
    refine ⟨chunk_sized s.params buf id i, fun hid => ?valid, fun hid => ?idZero⟩
    case valid => exact (exec_validate_ok_iff _ s).2 (validate_chunk_eq_ok hi hcount hid)
    case idZero => rw [exec_validate_eq, validate_of_id_zero rfl hid]

end Sys2Proof.Machine
end

section
/-! EXTRACT: the valid bytes of a packet whose size fits the slot, and none of an oversized one (R180 to R182). -/

namespace Sys2Proof.Machine

theorem exec_extract_of_oversized {p : Packet} {s : State} (h : s.params.N < p.payloadSize.toNat) :
    exec (.extract p) s = .next { s with responses := s.responses ++ [⟨.invalidPayloadSize, .absent⟩] } :=
  sizeTest_of_oversized h _

/-- Settles O23, one equation per outcome of the size test. -/
theorem extractCommandAnswers : Obligations.ExtractCommandAnswers := by
  unfold Obligations.ExtractCommandAnswers
  exact ⟨by decide, fun p s => ⟨exec_extract_of_fits, exec_extract_of_oversized⟩⟩

end Sys2Proof.Machine
end

section
/-! PROCESS, one equation per case: admission of a packet (R192 to R194), and delivery to its session (R195 to R199). -/

namespace Sys2Proof.Machine

section
variable {c : Params} {p : Packet} {t : Table} (hvalid : validate c p = .ok)
include hvalid

/-- A packet of a live id is delivered to its session, whatever the cap (R193). -/
theorem processPacket_of_live {v : Session} (hlive : lookup p.messageId t = some v) (nowMs : Time) :
    processPacket c p nowMs t = deliver p v t := by
  simp only [processPacket, hvalid, hlive, ne_eq, not_true, if_false]

/-- Under the cap a packet of an absent id is delivered to a new session (R194). -/
theorem processPacket_of_absent (habsent : lookup p.messageId t = none) (hcap : t.length < c.maxSessions) (nowMs : Time) :
    processPacket c p nowMs t = deliver p (newSession p nowMs) t := by
  simp only [processPacket, hvalid, habsent, Nat.not_le.2 hcap, ne_eq, not_true, if_false]

/-- At the cap a packet of an absent id is dropped (R193). -/
theorem processPacket_at_cap (habsent : lookup p.messageId t = none) (hcap : c.maxSessions ≤ t.length) (nowMs : Time) :
    processPacket c p nowMs t = (⟨.capacityExceeded, .absent⟩, t) := by
  simp only [processPacket, hvalid, habsent, hcap, ne_eq, not_true, if_false, if_true]

end

/-- A slot inside the array is free when it holds no packet (R196). -/
theorem occupied_of_slot {v : Session} {i : Nat} {slot : Option Packet} (h : v.slots[i]? = some slot) :
    occupied v i = slot.isSome := by
  simp only [occupied, h, Option.getD_some]

/-- An index at or beyond the session's totalChunks has no slot (R195). -/
theorem deliver_of_beyond {p : Packet} {v : Session} (h : v.totalChunks.toNat ≤ p.chunkIndex.toNat) (t : Table) :
    deliver p v t = (⟨.indexBeyondSession, .absent⟩, t) :=
  if_pos h

section
variable {p : Packet} {v : Session} (hindex : p.chunkIndex.toNat < v.totalChunks.toNat)
  (hempty : v.slots[p.chunkIndex.toNat]? = some none)
include hindex hempty

/-- The packet for the last missing slot completes the message (R198). -/
theorem deliver_of_last (hlast : v.receivedCount + 1 = v.totalChunks) (t : Table) :
    deliver p v t = (⟨.complete, .data (reassemble (v.slots.set p.chunkIndex.toNat (some p)))⟩, remove p.messageId t) := by
  rw [deliver, if_neg (Nat.not_le.2 hindex), occupied_of_slot hempty]
  exact if_pos hlast

/-- Any other packet for an empty slot is stored (R197, R199). -/
theorem deliver_of_not_last (hmore : v.receivedCount + 1 ≠ v.totalChunks) (t : Table) :
    deliver p v t = (⟨.stored, .absent⟩, insert p.messageId (storePacket v p) t) := by
  rw [deliver, if_neg (Nat.not_le.2 hindex), occupied_of_slot hempty]
  exact if_neg hmore

end

/-- Below another byte, a byte plus one does not wrap. -/
theorem byte_add_one_toNat {a b : Byte} (h : a.toNat < b.toNat) : (a + 1).toNat = a.toNat + 1 :=
  BitVec.toNat_add_of_lt (Nat.lt_of_le_of_lt (Nat.succ_le_of_lt h) b.isLt)

/-- The test of completion in unsigned numbers (R198). -/
theorem byte_add_one_eq_iff {a b : Byte} (h : a.toNat < b.toNat) : a + 1 = b ↔ a.toNat + 1 = b.toNat := by
  rw [← BitVec.toNat_inj, byte_add_one_toNat h]

/-- The slot of a valid packet in the session it creates is there, and empty (R194). -/
theorem newSession_slot {c : Params} {p : Packet} (h : validate c p = .ok) (nowMs : Time) :
    p.chunkIndex.toNat < (newSession p nowMs).totalChunks.toNat ∧
      (newSession p nowMs).slots[p.chunkIndex.toNat]? = some none := by
  obtain ⟨-, -, -, hindex, -⟩ := (validate_eq_ok_iff c p).1 h
  refine ⟨hindex, ?_⟩
  rw [newSession, List.getElem?_replicate, if_pos hindex]

/-- The first packet of a message of two or more chunks is stored in the session it creates (R194, R197). -/
theorem processPacket_first_of_many {c : Params} {p : Packet} {t : Table} (hvalid : validate c p = .ok)
    (habsent : lookup p.messageId t = none) (hcap : t.length < c.maxSessions) (hmany : 2 ≤ p.totalChunks.toNat)
    (nowMs : Time) :
    processPacket c p nowMs t =
      (⟨.stored, .absent⟩, insert p.messageId (storePacket (newSession p nowMs) p) t) := by
  obtain ⟨hindex, hempty⟩ := newSession_slot hvalid nowMs
  have hmore : (newSession p nowMs).receivedCount + 1 ≠ (newSession p nowMs).totalChunks := fun heq => by
    have hone : 1 = p.totalChunks.toNat := congrArg BitVec.toNat heq
    omega
  rw [processPacket_of_absent hvalid habsent hcap, deliver_of_not_last hindex hempty hmore]

/-- The one packet of a single-chunk message fills the whole slot array of the session it would create. -/
theorem newSession_slots_set_of_single {p : Packet} (hindex : p.chunkIndex.toNat < p.totalChunks.toNat)
    (hsingle : p.totalChunks.toNat = 1) (nowMs : Time) :
    (newSession p nowMs).slots.set p.chunkIndex.toNat (some p) = [some p] := by
  have hzero : p.chunkIndex.toNat = 0 := by omega
  rw [newSession, hsingle, hzero]
  rfl

/-- A single-chunk message completes at once, and its session is never in the table (R190, R198). -/
theorem processPacket_single {c : Params} {p : Packet} {t : Table} (hvalid : validate c p = .ok)
    (habsent : lookup p.messageId t = none) (hcap : t.length < c.maxSessions) (hsingle : p.totalChunks.toNat = 1)
    (nowMs : Time) : processPacket c p nowMs t = (⟨.complete, .data (validPayload p)⟩, t) := by
  obtain ⟨hindex, hempty⟩ := newSession_slot hvalid nowMs
  have hlast : (newSession p nowMs).receivedCount + 1 = (newSession p nowMs).totalChunks :=
    BitVec.eq_of_toNat_eq hsingle.symm
  have hout : reassemble [some p] = validPayload p := List.append_nil _
  rw [processPacket_of_absent hvalid habsent hcap, deliver_of_last hindex hempty hlast,
    newSession_slots_set_of_single hindex hsingle, hout, remove_of_lookup_none habsent]

/-- Settles O24: PROCESS takes the validator's verdict first. -/
theorem processRejectsInvalidPacket : Obligations.ProcessRejectsInvalidPacket := by
  unfold Obligations.ProcessRejectsInvalidPacket
  intro p nowMs s v hv h
  have hverdict : validate s.params p = v := by simpa [exec_validate_eq] using h
  rw [exec_process_eq, processPacket_of_invalid (hverdict ▸ hv), hverdict]

/-- Settles O25: the cap is tested for an absent id alone, and no delivery answers CapacityExceeded. -/
theorem capRefusesNewSessionsOnly : Obligations.CapRefusesNewSessionsOnly := by
  unfold Obligations.CapRefusesNewSessionsOnly
  refine fun p nowMs s hvalid => ⟨fun habsent hcap => ?absent, fun v hlive => ⟨_, _, exec_process_eq p nowMs s, ?live⟩⟩
  case absent => rw [exec_process_eq, processPacket_at_cap hvalid habsent hcap]
  case live =>
    rw [processPacket_of_live hvalid hlive]
    rcases deliver_cases p v s.sessions with ⟨-, heq⟩ | ⟨-, -, heq⟩ | ⟨-, -, -, heq⟩ | ⟨-, -, -, heq⟩
    all_goals
      rw [heq]
      nofun

/-- Settles O26: the new session is written to the table with the packet stored. -/
theorem firstChunkCreatesSession : Obligations.FirstChunkCreatesSession := by
  unfold Obligations.FirstChunkCreatesSession
  intro p nowMs s hvalid habsent hcap hmany
  refine ⟨insert p.messageId (storePacket (newSession p nowMs) p) s.sessions, ?_, lookup_insert_self _ _ _,
    fun k hk => lookup_insert_other hk _ _, length_insert_absent habsent⟩
  rw [exec_process_eq, processPacket_first_of_many hvalid habsent hcap hmany]

/-- Settles O27: the session that the packet would create is complete with it. -/
theorem singleChunkCompletesAtOnce : Obligations.SingleChunkCompletesAtOnce := by
  unfold Obligations.SingleChunkCompletesAtOnce
  intro p nowMs s hvalid habsent hcap hsingle
  rw [exec_process_eq, processPacket_single hvalid habsent hcap hsingle]
  rfl

/-- Settles O28: a valid packet's index is below its own totalChunks, and both tests come before anything is written. -/
theorem unplaceableChunkChangesNothing : Obligations.UnplaceableChunkChangesNothing := by
  unfold Obligations.UnplaceableChunkChangesNothing
  refine fun p nowMs s v hvalid hlive => ⟨fun hbeyond => ?beyond, fun q hindex hslot => ?duplicate⟩
  case beyond =>
    obtain ⟨-, -, -, hown, -⟩ := (validate_eq_ok_iff s.params p).1 hvalid
    rw [exec_process_eq, processPacket_of_live hvalid hlive, deliver_of_beyond hbeyond]
    exact ⟨Nat.lt_of_le_of_lt hbeyond hown, rfl⟩
  case duplicate =>
    rw [exec_process_eq, processPacket_duplicate hvalid hlive hindex (occupied_of_slot hslot)]

/-- Settles O29: storing replaces the session in the table, and the count is below totalChunks, so it does not wrap. -/
theorem chunkIsStoredInItsSlot : Obligations.ChunkIsStoredInItsSlot := by
  unfold Obligations.ChunkIsStoredInItsSlot
  intro p nowMs s v hvalid hlive hindex hempty hmissing
  have hcount : v.receivedCount.toNat < v.totalChunks.toNat := Nat.lt_of_succ_lt hmissing
  have hmore : v.receivedCount + 1 ≠ v.totalChunks := fun heq => hmissing.ne ((byte_add_one_eq_iff hcount).1 heq)
  refine ⟨insert p.messageId (storePacket v p) s.sessions, storePacket v p, ?_, lookup_insert_self _ _ _, rfl, rfl,
    byte_add_one_toNat hcount, rfl, fun k hk => lookup_insert_other hk _ _⟩
  rw [exec_process_eq, processPacket_of_live hvalid hlive, deliver_of_not_last hindex hempty hmore]

/-- Settles O30: completion reassembles the slots with the packet in its own, and removes the session. -/
theorem lastChunkCompletesMessage : Obligations.LastChunkCompletesMessage := by
  unfold Obligations.LastChunkCompletesMessage
  intro p nowMs s v hvalid hlive hindex hempty hcount
  have hlast : v.receivedCount + 1 = v.totalChunks := (byte_add_one_eq_iff (Nat.lt_of_succ_le hcount.le)).2 hcount
  refine ⟨remove p.messageId s.sessions, ?_, lookup_remove_self _ _, fun k hk => lookup_remove_other hk _⟩
  rw [exec_process_eq, processPacket_of_live hvalid hlive, deliver_of_last hindex hempty hlast, reassemble_eq]
  rfl

end Sys2Proof.Machine
end

section
/-! PRUNE and RESET on the table (R201 to R205): which sessions a PRUNE leaves, and the room it makes. -/

namespace Sys2Proof.Machine

/-- Settles O33. -/
theorem resetCommandAnswers : Obligations.ResetCommandAnswers := by
  unfold Obligations.ResetCommandAnswers
  exact ⟨by decide, exec_reset_eq⟩

/-- What each id reads after a PRUNE (R201). -/
theorem lookup_prune {t : Table} (hs : tableSorted t) (nowMs : Time) (timeoutMs : U32) (id : U16) :
    lookup id (t.filter fun e => !stale nowMs timeoutMs e.2) = (lookup id t).filter (!stale nowMs timeoutMs ·) :=
  lookup_filter hs _ id

/-- The eviction test in unsigned numbers (R201, R202). -/
theorem stale_iff_age (nowMs : Time) (timeoutMs : U32) (v : Session) :
    stale nowMs timeoutMs v = true ↔
      timeoutMs.toNat < (nowMs.toNat + 2 ^ 32 - v.firstReceivedTimeMs.toNat) % 2 ^ 32 := by
  rw [← age_toNat, stale_iff, age]

/-- Settles O32: in canonical form each id is decided by its own session alone. -/
theorem pruneRemovesExactlyStale : Obligations.PruneRemovesExactlyStale := by
  unfold Obligations.PruneRemovesExactlyStale
  refine ⟨by decide, fun nowMs timeoutMs s hs => ⟨_, exec_prune_eq nowMs timeoutMs s, fun k => ?_⟩⟩
  rw [lookup_prune hs]
  cases lookup k s.sessions with
  | none => rfl
  | some v =>
    have hage := stale_iff_age nowMs timeoutMs v
    by_cases hstale : stale nowMs timeoutMs v = true
    · simp only [Option.filter, hstale, if_pos (hage.1 hstale), Bool.not_true, Bool.false_eq_true, if_false]
    · simp only [Option.filter, hstale, if_neg (mt hage.2 hstale), Bool.not_false, if_true]

/-- A PRUNE that evicts a session leaves fewer of them (R201). -/
theorem length_prune_lt {t : Table} {id : U16} {v : Session} {nowMs : Time} {timeoutMs : U32}
    (hlive : lookup id t = some v) (hstale : stale nowMs timeoutMs v = true) :
    (t.filter fun e => !stale nowMs timeoutMs e.2).length < t.length :=
  List.length_filter_lt_length_iff_exists.2 ⟨(id, v), mem_of_lookup hlive, by simp [hstale]⟩

/-- Settles O34: the eviction leaves the id absent and the table under the cap, so the packet creates its session. -/
theorem prunedMessageStartsAgain : Obligations.PrunedMessageStartsAgain := by
  unfold Obligations.PrunedMessageStartsAgain
  intro p nowMs later timeoutMs s v hs hlive hage hvalid hmany
  have hstale : stale nowMs timeoutMs v = true := (stale_iff nowMs timeoutMs v).2 hage
  have habsent : lookup p.messageId (s.sessions.filter fun e => !stale nowMs timeoutMs e.2) = none := by
    simp [lookup_prune hs.sorted, hlive, hstale]
  have hcap := (length_prune_lt hlive hstale).trans_le hs.bounded
  have hfirst := processPacket_first_of_many hvalid habsent hcap hmany later
  refine ⟨_, _, exec_prune_eq nowMs timeoutMs s, exec_process_eq p later _, ?response, ?session⟩
  case response => exact congrArg (fun answer : Response × Table => _ ++ [answer.1]) hfirst
  case session =>
    exact (congrArg (fun answer : Response × Table => lookup p.messageId answer.2) hfirst).trans (lookup_insert_self _ _ _)

end Sys2Proof.Machine
end

section
/-! What PROCESS can do to a table that meets the invariant, said once: its response and its table, case by case (R191). -/

namespace Sys2Proof.Machine

/-- The response and the table of PROCESS in each case, with the guard of each transition of R190. -/
inductive ProcessEffect (c : Params) (p : Packet) (nowMs : Time) (t : Table) : Response × Table → Prop
  | refused (r : Response) (hstored : r.status ≠ .stored) (hcomplete : r.status ≠ .complete) :
      ProcessEffect c p nowMs t (r, t)
  | completedAlone (hvalid : validate c p = .ok) (habsent : lookup p.messageId t = none)
      (hsingle : p.totalChunks.toNat = 1) :
      ProcessEffect c p nowMs t (⟨.complete, .data (validPayload p)⟩, t)
  | created (hvalid : validate c p = .ok) (habsent : lookup p.messageId t = none) (hcap : t.length < c.maxSessions)
      (hmany : 2 ≤ p.totalChunks.toNat) :
      ProcessEffect c p nowMs t (⟨.stored, .absent⟩, insert p.messageId (storePacket (newSession p nowMs) p) t)
  | stored (v : Session) (hvalid : validate c p = .ok) (hlive : lookup p.messageId t = some v)
      (hempty : v.slots[p.chunkIndex.toNat]? = some none)
      (hmissing : v.receivedCount.toNat + 1 < v.totalChunks.toNat) :
      ProcessEffect c p nowMs t (⟨.stored, .absent⟩, insert p.messageId (storePacket v p) t)
  | completed (v : Session) (hvalid : validate c p = .ok) (hlive : lookup p.messageId t = some v)
      (hempty : v.slots[p.chunkIndex.toNat]? = some none)
      (hlast : v.receivedCount.toNat + 1 = v.totalChunks.toNat) :
      ProcessEffect c p nowMs t
        (⟨.complete, .data (reassemble (v.slots.set p.chunkIndex.toNat (some p)))⟩, remove p.messageId t)

/-- The validator answers OK and its eight codes alone (R120). -/
theorem validate_ne {st : Status} (hok : st ≠ .ok) (hcode : st ∉ validationCodes) (c : Params) (p : Packet) :
    validate c p ≠ st := by
  rintro rfl
  exact (validate_ok_or_code c p).elim hok hcode

/-- Delivery to a live session has one of the effects (R195 to R199). -/
theorem processEffect_deliver {c : Params} {p : Packet} {v : Session} {t : Table} (hvalid : validate c p = .ok)
    (hlive : lookup p.messageId t = some v) (hv : SessionInv c p.messageId v) (nowMs : Time) :
    ProcessEffect c p nowMs t (deliver p v t) := by
  have hlast_iff := byte_add_one_eq_iff hv.count_lt
  have hslot (hindex : p.chunkIndex.toNat < v.totalChunks.toNat) (hfree : occupied v p.chunkIndex.toNat = false) :
      v.slots[p.chunkIndex.toNat]? = some none := slot_of_not_occupied (hv.slots_length.symm ▸ hindex) hfree
  rcases deliver_cases p v t with
    ⟨-, heq⟩ | ⟨-, -, heq⟩ | ⟨hindex, hfree, hlast, heq⟩ | ⟨hindex, hfree, hmore, heq⟩
  all_goals rw [heq]
  · exact .refused _ nofun nofun
  · exact .refused _ nofun nofun
  · exact .completed v hvalid hlive (hslot hindex hfree) (hlast_iff.1 hlast)
  · exact .stored v hvalid hlive (hslot hindex hfree) (Nat.lt_of_le_of_ne hv.count_lt (mt hlast_iff.2 hmore))

/-- PROCESS has one of the effects (R191). -/
theorem processPacket_effect {c : Params} {t : Table} (ht : TableInv c t) (p : Packet) (nowMs : Time) :
    ProcessEffect c p nowMs t (processPacket c p nowMs t) := by
  rcases processPacket_cases c p nowMs t with
    ⟨-, heq⟩ | ⟨-, -, -, heq⟩ | ⟨hvalid, habsent, hcap, -⟩ | ⟨v, hvalid, hlive, heq⟩
  · exact heq ▸ .refused _ (validate_ne_stored c p) (validate_ne (by decide) (by decide) c p)
  · exact heq ▸ .refused _ nofun nofun
  · obtain ⟨-, hpos⟩ := ids_of_validate_ok hvalid
    rcases hpos.eq_or_lt with hsingle | hmany
    · exact processPacket_single hvalid habsent hcap hsingle.symm nowMs ▸ .completedAlone hvalid habsent hsingle.symm
    · exact processPacket_first_of_many hvalid habsent hcap hmany nowMs ▸ .created hvalid habsent hcap hmany
  · exact heq ▸ processEffect_deliver hvalid hlive (ht.live _ (mem_of_lookup hlive)) nowMs

/-- A write changes what its own id reads, if any (R14). -/
theorem eq_of_lookup_insert_ne {id k : U16} {v : Session} {t : Table} (h : lookup k (insert id v t) ≠ lookup k t) :
    id = k :=
  not_not.1 fun hne => h (lookup_insert_other (Ne.symm hne) v t)

theorem eq_of_lookup_remove_ne {id k : U16} {t : Table} (h : lookup k (remove id t) ≠ lookup k t) : id = k :=
  not_not.1 fun hne => h (lookup_remove_other (Ne.symm hne) t)

/-- Settles O36: a command that changes what the id reads is PROCESS with one of the effects that write, a PRUNE whose test
holds, or RESET. -/
theorem sessionLifecycle : Obligations.SessionLifecycle := by
  unfold Obligations.SessionLifecycle
  intro i s t id hs hexec
  by_cases hsame : lookup id t.sessions = lookup id s.sessions
  · rw [hsame]
    cases lookup id s.sessions with
    | none => trivial
    | some v => exact .inl rfl
  rcases usesTable_or_answersFromParams i with hi | ⟨r, hanswer⟩
  · cases hi with
    | process p nowMs =>
      have heffect := processPacket_effect ((State.inv_iff s).1 hs) p nowMs
      rw [exec_process_eq] at hexec
      generalize processPacket s.params p nowMs s.sessions = answer at hexec heffect
      cases hexec
      cases heffect with
      | refused => exact absurd rfl hsame
      | completedAlone => exact absurd rfl hsame
      | created hvalid habsent hcap hmany =>
        obtain rfl := eq_of_lookup_insert_ne hsame
        rw [habsent, lookup_insert_self]
        exact ⟨p, nowMs, rfl, rfl, hvalid, hcap, hmany, rfl, rfl, rfl, rfl⟩
      | stored v hvalid hlive hempty hmissing =>
        obtain rfl := eq_of_lookup_insert_ne hsame
        have hcount : (storePacket v p).receivedCount.toNat = v.receivedCount.toNat + 1 :=
          byte_add_one_toNat (Nat.lt_of_succ_lt hmissing)
        rw [hlive, lookup_insert_self]
        exact .inr ⟨p, nowMs, rfl, rfl, hvalid, hempty, rfl, rfl, rfl, hcount, hcount.trans_lt hmissing⟩
      | completed v hvalid hlive hempty hlast =>
        obtain rfl := eq_of_lookup_remove_ne hsame
        rw [hlive, lookup_remove_self]
        exact .inl ⟨p, nowMs, _, rfl, rfl, hvalid, hempty, hlast, rfl⟩
    | prune nowMs timeoutMs =>
      rw [exec_prune_eq] at hexec
      cases hexec
      rw [lookup_prune hs.sorted] at hsame ⊢
      cases hlive : lookup id s.sessions with
      | none => trivial
      | some v =>
        have hstale : stale nowMs timeoutMs v = true := by
          simpa [hlive, Option.filter] using hsame
        simp only [Option.filter, hstale]
        exact .inr (.inl ⟨nowMs, timeoutMs, rfl, (stale_iff _ _ _).1 hstale⟩)
    | reset =>
      rw [exec_reset_eq] at hexec
      cases hexec
      cases lookup id s.sessions with
      | none => trivial
      | some v => exact .inr (.inr rfl)
  · rw [hanswer] at hexec
    cases hexec
    exact absurd rfl hsame

end Sys2Proof.Machine
end

section
/-! Completion (R198): the session whose last empty slot is filled has a packet in every slot, each of its own index. -/

namespace Sys2Proof.Machine

/-- A packet for an empty slot is the last one missing when with it every slot is occupied (R24, R198). -/
theorem last_iff_all_slots {c : Params} {id : U16} {v : Session} {p : Packet} (hv : OpenSession c id v)
    (hempty : v.slots[p.chunkIndex.toNat]? = some none) :
    v.receivedCount.toNat + 1 = v.totalChunks.toNat ↔
      ∀ slot ∈ v.slots.set p.chunkIndex.toNat (some p), slot.isSome = true := by
  rw [← List.countP_eq_length, List.length_set, hv.slots_length, hv.count_eq]
  exact Eq.congr_left (occupiedCount_set hempty p).symm

/-- Reconstruction of a full slot array is the valid bytes of its packets in order (R198). -/
theorem reassemble_map_some (qs : List Packet) : reassemble (qs.map some) = qs.flatMap validPayload :=
  List.flatMap_map ..

/-- The packets of a message, one valid packet of `id` per index in ascending order (R198, R24). -/
def isWholeMessage (c : Params) (id : U16) (qs : List Packet) : Prop :=
  ∀ i q, qs[i]? = some q → storable c id i q

theorem isWholeMessage.indices {c : Params} {id : U16} {qs : List Packet} (h : isWholeMessage c id qs) :
    qs.map (fun q => q.chunkIndex.toNat) = List.range qs.length := by
  refine List.ext_getElem (by simp) fun i hi _ => ?_
  rw [List.getElem_map, List.getElem_range]
  obtain ⟨-, -, -, hindex⟩ := h i _ (List.getElem?_eq_getElem (by simpa using hi))
  exact hindex

theorem isWholeMessage.valid {c : Params} {id : U16} {qs : List Packet} (h : isWholeMessage c id qs) :
    ∀ q ∈ qs, q.sized c = true ∧ validate c q = .ok ∧ q.messageId = id := by
  intro q hq
  obtain ⟨i, hi⟩ := List.mem_iff_getElem?.1 hq
  obtain ⟨hsized, hvalid, hid, -⟩ := h i q hi
  exact ⟨hsized, hvalid, hid⟩

/-- A valid packet carries at most N bytes (R125). -/
theorem validPayload_length_le {c : Params} {q : Packet} (hvalid : validate c q = .ok) :
    (validPayload q).length ≤ c.N := by
  obtain ⟨-, -, -, -, hsize, -⟩ := (validate_eq_ok_iff c q).1 hvalid
  exact (List.length_take_le _ _).trans hsize

/-- A message of at most 255 chunks has at most 255 × N bytes (R9). -/
theorem isWholeMessage.length_le {c : Params} {id : U16} {qs : List Packet} (h : isWholeMessage c id qs)
    (hcount : qs.length ≤ 255) : (qs.flatMap validPayload).length ≤ 255 * c.N := by
  have hchunk : ∀ n ∈ qs.map (fun q => (validPayload q).length), n ≤ c.N :=
    List.forall_mem_map.2 fun q hq => validPayload_length_le (h.valid q hq).2.1
  calc (qs.flatMap validPayload).length = (qs.map fun q => (validPayload q).length).sum := List.length_flatMap
    _ ≤ qs.length * c.N := by simpa using List.sum_le_card_nsmul _ _ hchunk
    _ ≤ 255 * c.N := Nat.mul_le_mul_right _ hcount

/-- The slots of a completed session hold a whole message, as many packets as its totalChunks (R24, R198). -/
theorem completed_slots {c : Params} {v : Session} {p : Packet} (hv : OpenSession c p.messageId v)
    (hsized : p.sized c = true) (hvalid : validate c p = .ok) (hempty : v.slots[p.chunkIndex.toNat]? = some none)
    (hlast : v.receivedCount.toNat + 1 = v.totalChunks.toNat) :
    ∃ qs : List Packet, v.slots.set p.chunkIndex.toNat (some p) = qs.map some ∧ qs.length = v.totalChunks.toNat ∧
      p ∈ qs ∧ isWholeMessage c p.messageId qs := by
  have hall := (last_iff_all_slots hv hempty).1 hlast
  obtain ⟨hbound, -⟩ := List.getElem?_eq_some_iff.1 hempty
  have hmem : some p ∈ v.slots.set p.chunkIndex.toNat (some p) := List.mem_set hbound _
  have hlength : (v.slots.set p.chunkIndex.toNat (some p)).length = v.totalChunks.toNat :=
    List.length_set.trans hv.slots_length
  have hslot (i : Nat) (q : Packet) (h : (v.slots.set p.chunkIndex.toNat (some p))[i]? = some (some q)) :
      storable c p.messageId i q := by
    rcases storePacket_slot h with ⟨hi, rfl⟩ | hold
    · exact ⟨hsized, hvalid, rfl, hi⟩
    · exact hv.stored i q hold
  obtain ⟨qs, hqs⟩ : v.slots.set p.chunkIndex.toNat (some p) ∈ Set.range (List.map some) := by
    rw [Set.range_list_map]
    exact fun slot hs => (Option.isSome_iff_exists.1 (hall slot hs)).imp fun _ => Eq.symm
  rw [← hqs] at hmem hlength hslot ⊢
  refine ⟨qs, rfl, by simpa using hlength, by simpa using hmem, fun i q hq => hslot i q ?_⟩
  rw [List.getElem?_map, hq, Option.map_some]

/-- Settles O31: PROCESS answers Complete for a packet that is its message alone, or for the one that leaves no slot of a
live session empty. -/
theorem completionHasEveryChunkOnce : Obligations.CompletionHasEveryChunkOnce := by
  unfold Obligations.CompletionHasEveryChunkOnce
  intro p nowMs s t out hs hsized hexec hanswer
  have heffect := processPacket_effect ((State.inv_iff s).1 hs) p nowMs
  rw [exec_process_eq] at hexec
  cases hexec
  have hresponse : (processPacket s.params p nowMs s.sessions).1 = ⟨.complete, .data out⟩ := by simpa using hanswer
  generalize processPacket s.params p nowMs s.sessions = answer at hresponse heffect
  cases heffect with
  | refused r _ hcomplete => exact absurd (congrArg Response.status hresponse) hcomplete
  | created => cases hresponse
  | stored => cases hresponse
  | completedAlone hvalid habsent hsingle =>
    cases hresponse
    obtain ⟨-, -, -, hindex, -⟩ := (validate_eq_ok_iff s.params p).1 hvalid
    have hwhole : isWholeMessage s.params p.messageId [p] := fun i q hq => by
      obtain ⟨rfl, rfl⟩ : i = 0 ∧ p = q := by simpa [List.getElem?_singleton] using hq
      exact ⟨hsized, hvalid, rfl, by omega⟩
    have hout : [p].flatMap validPayload = validPayload p := List.flatMap_singleton ..
    refine ⟨[p], hout.symm, hwhole.indices, List.mem_singleton_self p, hwhole.valid, fun v hlive => ?_, fun _ => rfl,
      hout ▸ hwhole.length_le (Nat.le_add_left 1 254)⟩
    rw [habsent] at hlive
    cases hlive
  | completed v hvalid hlive hempty hlast =>
    cases hresponse
    have hv := (hs.live _ (mem_of_lookup hlive)).openSession
    obtain ⟨qs, hslots, hlength, hmem, hwhole⟩ := completed_slots hv hsized hvalid hempty hlast
    rw [hslots, reassemble_map_some]
    refine ⟨qs, rfl, hwhole.indices, hmem, hwhole.valid, fun w hw => ?_, fun habsent => ?_,
      hwhole.length_le (hlength ▸ Nat.le_of_lt_succ v.totalChunks.isLt)⟩
    · obtain rfl : v = w := Option.some.inj (hlive.symm.trans hw)
      exact ⟨hlength, hslots⟩
    · rw [hlive] at habsent
      cases habsent

end Sys2Proof.Machine
end

section
/-! The message that R206 reassembles: SPLIT's chunks of a buffer, the session that collects them, and delivery to it. -/

namespace Sys2Proof.Machine

/-- What SPLIT's answer says of its chunks: there are at most 255, they carry the buffer, and the id makes them valid
(R161, R165, R167). -/
structure SplitMessage (c : Params) (buf : Bytes) (id : U16) : Prop where
  id_ne_zero : id ≠ 0
  count_le : chunkCount c buf.length ≤ 255
  carried : (chunks c buf id).flatMap validPayload = buf

/-- Chunk `k` has been given to PROCESS by one of the commands `done`. -/
def delivered (c : Params) (buf : Bytes) (id : U16) (done : List Instr) (k : Nat) : Prop :=
  ∃ nowMs, Instr.process (chunk c buf id k) nowMs ∈ done

/-- The session of the message after the commands `done`: the chunks given so far, each in its slot. -/
structure Assembling (c : Params) (buf : Bytes) (id : U16) (done : List Instr) (v : Session) : Prop where
  isOpen : OpenSession c id v
  total : v.totalChunks.toNat = chunkCount c buf.length
  filled : ∀ k < chunkCount c buf.length, delivered c buf id done k → v.slots[k]? = some (some (chunk c buf id k))
  empty : ∀ k < chunkCount c buf.length, ¬ delivered c buf id done k → v.slots[k]? = some none

theorem mem_chunks_iff {c : Params} {buf : Bytes} {id : U16} {q : Packet} :
    q ∈ chunks c buf id ↔ ∃ k < chunkCount c buf.length, chunk c buf id k = q := by
  simp [chunks]

theorem delivered_nil (c : Params) (buf : Bytes) (id : U16) (k : Nat) : ¬ delivered c buf id [] k := by
  simp [delivered]

theorem delivered_cons {c : Params} {buf : Bytes} {id : U16} {i : Instr} {done : List Instr} {k : Nat} :
    delivered c buf id (i :: done) k ↔ (∃ nowMs, i = .process (chunk c buf id k) nowMs) ∨ delivered c buf id done k := by
  simp only [delivered, List.mem_cons, exists_or, eq_comm]

/-- A command that delivers no chunk leaves what has been delivered. -/
theorem delivered_cons_of_not_delivers {c : Params} {buf : Bytes} {id : U16} {i : Instr} {k : Nat}
    (hk : k < chunkCount c buf.length) (hi : ¬ delivers (chunks c buf id) i) (done : List Instr) :
    delivered c buf id (i :: done) k ↔ delivered c buf id done k := by
  rw [delivered_cons, or_iff_right]
  exact fun ⟨nowMs, h⟩ => hi ⟨_, mem_chunks_iff.2 ⟨k, hk, rfl⟩, nowMs, h⟩

/-- Only what has been delivered matters to the session under way. -/
theorem Assembling.congr {c : Params} {buf : Bytes} {id : U16} {done done' : List Instr} {v : Session}
    (h : Assembling c buf id done v)
    (hiff : ∀ k < chunkCount c buf.length, delivered c buf id done' k ↔ delivered c buf id done k) :
    Assembling c buf id done' v where
  isOpen := h.isOpen
  total := h.total
  filled k hk hdone := h.filled k hk ((hiff k hk).1 hdone)
  empty k hk hnot := h.empty k hk (mt (hiff k hk).2 hnot)

/-- With the last chunk missing in its slot, the slots hold SPLIT's packets in order (R165, R198). -/
theorem Assembling.slots_set_last {c : Params} {buf : Bytes} {id : U16} {k : Nat} {done : List Instr} {v : Session}
    (h : Assembling c buf id done v)
    (hothers : ∀ j < chunkCount c buf.length, j ≠ k → delivered c buf id done j) :
    v.slots.set k (some (chunk c buf id k)) = (chunks c buf id).map some := by
  have hlength : v.slots.length = chunkCount c buf.length := h.isOpen.slots_length.trans h.total
  refine List.ext_getElem? fun j => ?_
  rcases Nat.lt_or_ge j (chunkCount c buf.length) with hj | hj
  · rw [List.getElem?_map, chunks_getElem?_eq_some_iff.2 ⟨hj, rfl⟩, Option.map_some]
    rcases eq_or_ne j k with rfl | hne
    · exact List.getElem?_set_self (hlength.symm ▸ hj)
    · rw [List.getElem?_set_ne hne.symm]
      exact h.filled j hj (hothers j hj hne)
  · rw [List.getElem?_eq_none (by rwa [List.length_set, hlength]),
      List.getElem?_eq_none (by rwa [List.length_map, chunks_length])]

section
variable {c : Params} {buf : Bytes} {id : U16} {k : Nat} (hm : SplitMessage c buf id) (hk : k < chunkCount c buf.length)
include hm hk

theorem SplitMessage.validate_chunk : validate c (chunk c buf id k) = .ok :=
  validate_chunk_eq_ok hk hm.count_le hm.id_ne_zero

theorem SplitMessage.chunk_index : (chunk c buf id k).chunkIndex.toNat = k :=
  chunk_chunkIndex_toNat hk hm.count_le id

/-- Two chunks of one message differ in their index. -/
theorem SplitMessage.chunk_inj {j : Nat} (hj : j < chunkCount c buf.length)
    (h : chunk c buf id j = chunk c buf id k) : j = k := by
  rw [← hm.chunk_index hj, h, hm.chunk_index hk]

theorem SplitMessage.delivered_cons_chunk {j : Nat} (hj : j < chunkCount c buf.length) (nowMs : Time)
    (done : List Instr) :
    delivered c buf id (.process (chunk c buf id k) nowMs :: done) j ↔ j = k ∨ delivered c buf id done j := by
  rw [delivered_cons]
  refine or_congr_left ⟨fun ⟨later, h⟩ => ?_, fun h => ⟨nowMs, by rw [h]⟩⟩
  injection h with hchunk
  exact hm.chunk_inj hk hj hchunk.symm

/-- Before the first delivery the session that a chunk creates has every slot empty (R194). -/
theorem SplitMessage.assembling_newSession (nowMs : Time) :
    Assembling c buf id [] (newSession (chunk c buf id k) nowMs) where
  isOpen := openSession_newSession (hm.validate_chunk hk) nowMs
  total := chunk_totalChunks_toNat (i := k) hm.count_le id
  filled j _ h := absurd h (delivered_nil c buf id j)
  empty j hj _ := by
    rw [newSession, List.getElem?_replicate, chunk_totalChunks_toNat hm.count_le, if_pos hj]

variable {done : List Instr} {v : Session} (h : Assembling c buf id done v)
include h

theorem Assembling.index_lt : (chunk c buf id k).chunkIndex.toNat < v.totalChunks.toNat := by
  rwa [hm.chunk_index hk, h.total]

/-- A chunk delivered before is answered Duplicate (R196). -/
theorem Assembling.processPacket_seen {t : Table} (hlive : lookup id t = some v) (hseen : delivered c buf id done k)
    (nowMs : Time) : processPacket c (chunk c buf id k) nowMs t = (⟨.duplicate, .absent⟩, t) := by
  have hslot : v.slots[(chunk c buf id k).chunkIndex.toNat]? = some (some (chunk c buf id k)) := by
    rw [hm.chunk_index hk]
    exact h.filled k hk hseen
  exact processPacket_duplicate (hm.validate_chunk hk) hlive (h.index_lt hm hk) (occupied_of_slot hslot) nowMs

variable (hnew : ¬ delivered c buf id done k)
include hnew

theorem Assembling.slot_new : v.slots[(chunk c buf id k).chunkIndex.toNat]? = some none := by
  rw [hm.chunk_index hk]
  exact h.empty k hk hnew

/-- While another chunk is missing, a new chunk is not the last one (R198). -/
theorem Assembling.not_last {j : Nat} (hj : j < chunkCount c buf.length) (hmissing : ¬ delivered c buf id done j)
    (hne : j ≠ k) : v.receivedCount + 1 ≠ v.totalChunks := fun hlast => by
  have hall := (last_iff_all_slots h.isOpen (h.slot_new hm hk hnew)).1
    ((byte_add_one_eq_iff h.isOpen.count_lt).1 hlast)
  have hslot : (v.slots.set (chunk c buf id k).chunkIndex.toNat (some (chunk c buf id k)))[j]? = some none := by
    rw [hm.chunk_index hk, List.getElem?_set_ne hne.symm]
    exact h.empty j hj hmissing
  exact absurd (hall none (List.mem_of_getElem? hslot)) nofun

/-- Storing a new chunk leaves the session of one more delivery (R197). -/
theorem Assembling.store (hmore : v.receivedCount + 1 ≠ v.totalChunks) (nowMs : Time) :
    Assembling c buf id (.process (chunk c buf id k) nowMs :: done) (storePacket v (chunk c buf id k)) where
  isOpen := by
    have hfree := occupied_of_slot (h.slot_new hm hk hnew)
    exact (sessionInv_storePacket h.isOpen (chunk_sized c buf id k) (hm.validate_chunk hk) (h.index_lt hm hk) hfree
      hmore).openSession
  total := h.total
  filled j hj hdone := by
    rw [storePacket, hm.chunk_index hk]
    rcases eq_or_ne j k with rfl | hne
    · exact List.getElem?_set_self (by rwa [h.isOpen.slots_length, h.total])
    · rw [List.getElem?_set_ne hne.symm]
      exact h.filled j hj (((hm.delivered_cons_chunk hk hj nowMs done).1 hdone).resolve_left hne)
  empty j hj hnot := by
    rw [hm.delivered_cons_chunk hk hj, not_or] at hnot
    rw [storePacket, hm.chunk_index hk, List.getElem?_set_ne (Ne.symm hnot.1)]
    exact h.empty j hj hnot.2

/-- The last chunk missing completes the message with the buffer (R198, R206). -/
theorem Assembling.deliver_last (hothers : ∀ j < chunkCount c buf.length, j ≠ k → delivered c buf id done j)
    (t : Table) : deliver (chunk c buf id k) v t = (⟨.complete, .data buf⟩, remove id t) := by
  have hempty := h.slot_new hm hk hnew
  have hslots := h.slots_set_last hothers
  have hlast : v.receivedCount.toNat + 1 = v.totalChunks.toNat := by
    rw [last_iff_all_slots h.isOpen hempty, hm.chunk_index hk, hslots]
    exact List.forall_mem_map.2 fun _ _ => rfl
  rw [deliver_of_last (h.index_lt hm hk) hempty ((byte_add_one_eq_iff h.isOpen.count_lt).2 hlast), hm.chunk_index hk,
    hslots, reassemble_map_some, hm.carried]
  rfl

end

end Sys2Proof.Machine
end

section
/-! Runs of commands on a message under way (R206): what the commands in between leave alone, and the induction over
the run. -/

namespace Sys2Proof.Machine

/-- PROCESS leaves the session of every id but its packet's own (R191). -/
theorem lookup_processPacket_other {c : Params} {p : Packet} {nowMs : Time} {t : Table} {id : U16}
    (h : id ≠ p.messageId) : lookup id (processPacket c p nowMs t).2 = lookup id t := by
  have hdeliver (v : Session) : lookup id (deliver p v t).2 = lookup id t := by
    rcases deliver_cases p v t with ⟨-, heq⟩ | ⟨-, -, heq⟩ | ⟨-, -, -, heq⟩ | ⟨-, -, -, heq⟩
    all_goals rw [heq]
    · exact lookup_remove_other h t
    · exact lookup_insert_other h _ t
  rcases processPacket_cases c p nowMs t with ⟨-, heq⟩ | ⟨-, -, -, heq⟩ | ⟨-, -, -, heq⟩ | ⟨v, -, -, heq⟩
  all_goals rw [heq]
  · exact hdeliver _
  · exact hdeliver v

/-- A filter that keeps the session an id reads keeps it readable, in any table. -/
theorem lookup_filter_of_kept {id : U16} {v : Session} {t : Table} {f : U16 × Session → Bool}
    (h : lookup id t = some v) (hkept : f (id, v) = true) : lookup id (t.filter f) = some v := by
  induction t with
  | nil => cases h
  | cons e t ih =>
    obtain ⟨k, w⟩ := e
    by_cases hk : k = id
    · subst k
      obtain rfl : w = v := by simpa [lookup] using h
      simp [hkept, lookup]
    · rw [lookup, if_neg hk] at h
      cases hf : f (k, w) with
      | true => simpa [hf, lookup, hk] using ih h
      | false => simpa [hf] using ih h

/-- A command that R206 admits and that delivers no chunk leaves the session under way (R206). -/
theorem lookup_of_undisturbing {ps : List Packet} {id : U16} {i : Instr} {s t : State} {v : Session}
    (hi : undisturbing ps id s i) (hnot : ¬ delivers ps i) (hlive : lookup id s.sessions = some v)
    (hexec : exec i s = .next t) : lookup id t.sessions = some v := by
  rcases usesTable_or_answersFromParams i with huses | ⟨r, hanswer⟩
  · cases huses with
    | process p nowMs =>
      have hother : p.messageId ≠ id := hi.resolve_left fun hp => hnot ⟨p, hp, nowMs, rfl⟩
      rw [exec_process_eq] at hexec
      cases hexec
      exact (lookup_processPacket_other hother.symm).trans hlive
    | prune nowMs timeoutMs =>
      have hfresh : stale nowMs timeoutMs v = false := hi v hlive
      rw [exec_prune_eq] at hexec
      cases hexec
      exact lookup_filter_of_kept hlive (by rw [hfresh, Bool.not_false])
    | reset => exact absurd (hlive.symm.trans hi) nofun
  · rw [hanswer] at hexec
    cases hexec
    exact hlive

/-- What an admitted command leaves of a message under way: the state after it, the session, and the answer when it
delivers a chunk. -/
def keepsAssembling (c : Params) (buf : Bytes) (id : U16) (done : List Instr) (i : Instr) (s : State) : Prop :=
  ∃ (t : State) (v : Session) (r : Response), exec i s = .next t ∧ t.params = s.params ∧
    t.responses = s.responses ++ [r] ∧ lookup id t.sessions = some v ∧ Assembling c buf id (i :: done) v ∧
    (delivers (chunks c buf id) i → r = ⟨.stored, .absent⟩ ∨ r = ⟨.duplicate, .absent⟩)

/-- A new chunk that is not the last one is stored in the session that the message has or now gets (R197). -/
theorem keepsAssembling_of_new {c : Params} {buf : Bytes} {id : U16} (hm : SplitMessage c buf id) {s : State}
    {done : List Instr} {v : Session} {j k : Nat} {nowMs : Time} (h : Assembling c buf id done v)
    (hk : k < chunkCount c buf.length) (hnew : ¬ delivered c buf id done k) (hj : j < chunkCount c buf.length)
    (hmissing : ¬ delivered c buf id done j) (hne : j ≠ k)
    (hprocess : processPacket s.params (chunk c buf id k) nowMs s.sessions = deliver (chunk c buf id k) v s.sessions) :
    keepsAssembling c buf id done (.process (chunk c buf id k) nowMs) s := by
  have hmore := h.not_last hm hk hnew hj hmissing hne
  rw [deliver_of_not_last (h.index_lt hm hk) (h.slot_new hm hk hnew) hmore] at hprocess
  refine ⟨_, storePacket v (chunk c buf id k), _, exec_process_eq _ _ _, rfl, rfl, ?_, h.store hm hk hnew hmore nowMs,
    fun _ => .inl (by rw [hprocess])⟩
  rw [hprocess]
  exact lookup_insert_self id _ _

/-- Every admitted command but the delivery of a chunk still missing keeps the message under way (R206). -/
theorem keepsAssembling_of_undisturbing {c : Params} {buf : Bytes} {id : U16} (hm : SplitMessage c buf id) {s : State}
    {done : List Instr} {v : Session} {j : Nat} {i : Instr} (hc : s.params = c) (h : Assembling c buf id done v)
    (hlive : lookup id s.sessions = some v) (hi : undisturbing (chunks c buf id) id s i)
    (hj : j < chunkCount c buf.length) (hmissing : ¬ delivered c buf id (i :: done) j) :
    keepsAssembling c buf id done i s := by
  subst hc
  rw [delivered_cons, not_or] at hmissing
  obtain ⟨hnotThis, hmissing⟩ := hmissing
  by_cases hdelivers : delivers (chunks s.params buf id) i
  · obtain ⟨p, hp, nowMs, rfl⟩ := hdelivers
    obtain ⟨k, hk, rfl⟩ := mem_chunks_iff.1 hp
    by_cases hseen : delivered s.params buf id done k
    · have hprocess := h.processPacket_seen hm hk hlive hseen nowMs
      refine ⟨_, v, _, exec_process_eq _ _ _, rfl, rfl, by rwa [hprocess], h.congr fun m hmlt => ?_,
        fun _ => .inr (by rw [hprocess])⟩
      rw [hm.delivered_cons_chunk hk hmlt, or_iff_right_of_imp]
      rintro rfl
      exact hseen
    · have hne : j ≠ k := fun heq => hnotThis ⟨nowMs, by rw [heq]⟩
      exact keepsAssembling_of_new hm h hk hseen hj hmissing hne
        (processPacket_of_live (hm.validate_chunk hk) hlive nowMs)
  · obtain ⟨r, t, hexec⟩ := exec_shape i s
    exact ⟨_, v, r, hexec, rfl, rfl, lookup_of_undisturbing hi hdelivers hlive hexec,
      h.congr fun m hmlt => delivered_cons_of_not_delivers hmlt hdelivers done, fun hd => absurd hd hdelivers⟩

/-- R206's outcome: the last command of the run answers Complete with the buffer, every earlier delivery Stored or
Duplicate, and no session of the id is left. -/
def Reassembles (buf : Bytes) (id : U16) (ps : List Packet) (run : List Instr) (last : Instr) (s : State) : Prop :=
  ∃ (t : State) (rs : List Response), runInstrs (run ++ [last]) s = some t ∧ t.responses = s.responses ++ rs ∧
    rs.length = run.length + 1 ∧ rs[run.length]? = some ⟨.complete, .data buf⟩ ∧
    (∀ (k : Nat) (i : Instr), run[k]? = some i → delivers ps i →
      rs[k]? = some ⟨.stored, .absent⟩ ∨ rs[k]? = some ⟨.duplicate, .absent⟩) ∧
    lookup id t.sessions = none

/-- A run goes on from the state its first command leaves (R46). -/
theorem runInstrs_cons {i : Instr} {s t : State} (h : exec i s = .next t) (is : List Instr) :
    runInstrs (i :: is) s = runInstrs is t := by
  simp only [runInstrs, h]

/-- A run of the completing command alone. -/
theorem reassembles_nil {buf : Bytes} {id : U16} {p : Packet} {nowMs : Time} {s : State}
    (h : processPacket s.params p nowMs s.sessions = (⟨.complete, .data buf⟩, remove id s.sessions)) (ps : List Packet) :
    Reassembles buf id ps [] (.process p nowMs) s := by
  refine ⟨_, [⟨.complete, .data buf⟩], runInstrs_cons (exec_process_eq p nowMs s) [], by rw [h], rfl, rfl, nofun, ?_⟩
  rw [h]
  exact lookup_remove_self _ _

/-- One more command before the run, which answers as R206 lets a delivery. -/
theorem reassembles_cons {buf : Bytes} {id : U16} {ps : List Packet} {i last : Instr} {run : List Instr} {s t : State}
    {r : Response} (hexec : exec i s = .next t) (hr : t.responses = s.responses ++ [r])
    (hanswer : delivers ps i → r = ⟨.stored, .absent⟩ ∨ r = ⟨.duplicate, .absent⟩)
    (h : Reassembles buf id ps run last t) : Reassembles buf id ps (i :: run) last s := by
  obtain ⟨u, rs, hrun, hresponses, hlength, hlast, hbefore, hgone⟩ := h
  refine ⟨u, r :: rs, (runInstrs_cons hexec _).trans hrun, ?_, congrArg Nat.succ hlength, hlast, fun k j hk hj => ?_, hgone⟩
  · rw [hresponses, hr, List.append_assoc, List.singleton_append]
  · cases k with
    | zero =>
      obtain rfl : i = j := Option.some.inj hk
      exact (hanswer hj).imp (congrArg some) (congrArg some)
    | succ k => exact hbefore k j hk hj

/-- A message under way is reassembled by a run that delivers every chunk still missing, one of them, `j`, only at the
end (R206). -/
theorem reassembles_of_assembling {c : Params} {buf : Bytes} {id : U16} (hm : SplitMessage c buf id) {j : Nat}
    (hj : j < chunkCount c buf.length) (nowMs : Time) {run done : List Instr} {s : State} {v : Session}
    (hc : s.params = c) (h : Assembling c buf id done v) (hlive : lookup id s.sessions = some v)
    (hadmitted : undisturbed (chunks c buf id) id (run ++ [.process (chunk c buf id j) nowMs]) s)
    (hmissing : ¬ delivered c buf id done j) (hlate : ¬ delivered c buf id run j)
    (hothers : ∀ k < chunkCount c buf.length, k ≠ j → delivered c buf id run k ∨ delivered c buf id done k) :
    Reassembles buf id (chunks c buf id) run (.process (chunk c buf id j) nowMs) s := by
  induction run generalizing done s v with
  | nil =>
    have hothers' (k : Nat) (hk : k < chunkCount c buf.length) (hne : k ≠ j) : delivered c buf id done k :=
      (hothers k hk hne).resolve_left (delivered_nil c buf id k)
    refine reassembles_nil ?_ _
    rw [hc, processPacket_of_live (hm.validate_chunk hj) hlive, h.deliver_last hm hj hmissing hothers']
  | cons i run ih =>
    obtain ⟨hi, hrest⟩ := hadmitted
    rw [delivered_cons, not_or] at hlate
    have hmissing' : ¬ delivered c buf id (i :: done) j := fun hdone =>
      (delivered_cons.1 hdone).elim hlate.1 hmissing
    obtain ⟨t, w, r, hexec, hparams, hr, hlive', h', hanswer⟩ :=
      keepsAssembling_of_undisturbing hm hc h hlive hi hj hmissing'
    refine reassembles_cons hexec hr hanswer
      (ih (hparams.trans hc) h' hlive' (hrest t hexec) hmissing' hlate.2 fun k hk hne => ?_)
    rcases hothers k hk hne with hrun | hdone
    · exact (delivered_cons.1 hrun).elim (fun hthis => .inr (delivered_cons.2 (.inl hthis))) .inl
    · exact .inr (delivered_cons.2 (.inr hdone))

/-- The same from a state with room and no session of the id, when the run begins with a delivery (R194, R206). -/
theorem reassembles_of_absent {c : Params} {buf : Bytes} {id : U16} (hm : SplitMessage c buf id) {j : Nat}
    (hj : j < chunkCount c buf.length) (nowMs : Time) {run : List Instr} {s : State} (hc : s.params = c)
    (habsent : lookup id s.sessions = none) (hcap : s.sessions.length < c.maxSessions)
    (hfirst : ∀ i, run.head? = some i → delivers (chunks c buf id) i)
    (hadmitted : undisturbed (chunks c buf id) id (run ++ [.process (chunk c buf id j) nowMs]) s)
    (hlate : ¬ delivered c buf id run j)
    (hothers : ∀ k < chunkCount c buf.length, k ≠ j → delivered c buf id run k) :
    Reassembles buf id (chunks c buf id) run (.process (chunk c buf id j) nowMs) s := by
  cases run with
  | nil =>
    have hnew := hm.assembling_newSession hj nowMs
    refine reassembles_nil ?_ _
    rw [hc, processPacket_of_absent (hm.validate_chunk hj) habsent hcap, hnew.deliver_last hm hj hlate hothers]
  | cons i run =>
    obtain ⟨p, hp, now, rfl⟩ := hfirst i rfl
    obtain ⟨k, hk, rfl⟩ := mem_chunks_iff.1 hp
    obtain ⟨-, hrest⟩ := hadmitted
    rw [hm.delivered_cons_chunk hk hj, not_or] at hlate
    obtain ⟨t, w, r, hexec, hparams, hr, hlive, h, hanswer⟩ :=
      keepsAssembling_of_new hm (hm.assembling_newSession hk now) hk (delivered_nil c buf id k) hj
        (delivered_nil c buf id j) hlate.1
        (processPacket_of_absent (hc ▸ hm.validate_chunk hk) habsent (hc ▸ hcap) now)
    have hmissing : ¬ delivered c buf id [.process (chunk c buf id k) now] j := fun hdone =>
      ((hm.delivered_cons_chunk hk hj now []).1 hdone).elim hlate.1 (delivered_nil c buf id j)
    refine reassembles_cons hexec hr hanswer
      (reassembles_of_assembling hm hj nowMs (hparams.trans hc) h hlive (hrest t hexec) hmissing hlate.2
        fun m hmlt hne => ?_)
    rcases (hm.delivered_cons_chunk hk hmlt now run).1 (hothers m hmlt hne) with hthis | hrun
    · exact .inr ((hm.delivered_cons_chunk hk hmlt now []).2 (.inl hthis))
    · exact .inl hrun

/-- Settles O37: the chunk that no command of the run delivers is the one the last command does; the first command creates
the session, the others collect the chunks, and the last one completes it. -/
theorem splitReassemblesInAnyOrder : Obligations.SplitReassemblesInAnyOrder := by
  unfold Obligations.SplitReassemblesInAnyOrder
  intro buf id ps sender s run last hsender hpos hid hsplit habsent hcap hfirst hadmitted _ hlate hall
  have hcarried := splitPacketsCarryBuffer buf id ps sender hsplit
  obtain ⟨rfl, -⟩ | ⟨-, hfits, hps⟩ := of_exec_split_packets hsplit
  · cases hpos
  rw [hsender] at hfits hps
  subst hps
  obtain ⟨-, hcount, -, -⟩ := chunkCount_bounds s.params buf.length hpos hfits
  have hm : SplitMessage s.params buf id := ⟨hid, hcount, hcarried⟩
  obtain ⟨p, hp, hnotRun⟩ := hlate
  obtain ⟨nowMs, hmem⟩ := hall p hp
  obtain rfl : .process p nowMs = last :=
    List.mem_singleton.1 ((List.mem_append.1 hmem).resolve_left (hnotRun nowMs))
  obtain ⟨j, hj, rfl⟩ := mem_chunks_iff.1 hp
  refine reassembles_of_absent hm hj nowMs rfl habsent hcap (fun i hi => ?first) hadmitted
    (fun ⟨later, h⟩ => hnotRun later h) fun k hk hne => ?others
  case first => exact hfirst i (by rw [List.head?_append, hi, Option.some_or])
  case others =>
    obtain ⟨later, h⟩ := hall _ (mem_chunks_iff.2 ⟨k, hk, rfl⟩)
    refine ⟨later, (List.mem_append.1 h).resolve_right fun hlast => hne ?_⟩
    injection List.mem_singleton.1 hlast with hchunk
    exact hm.chunk_inj hj hk hchunk

end Sys2Proof.Machine
end

section
/-! A command that fails gives no result and leaves the session table as it found it (R240, R246). -/

namespace Sys2Proof.Machine

/-- A response and the table left with it, where the table was `t`: only OK, Complete and Stored may come with a result or
with another table (R240). -/
def failsCleanly (t : Table) (answer : Response × Table) : Prop :=
  answer.1.status ∉ [Status.ok, .complete, .stored] → answer.2 = t ∧ answer.1.result = .absent

theorem failsCleanly_of_success {st : Status} (h : st ∈ [Status.ok, .complete, .stored]) (v : Result) (t u : Table) :
    failsCleanly t (⟨st, v⟩, u) :=
  absurd h

theorem failsCleanly_of_absent (st : Status) (t : Table) : failsCleanly t (⟨st, .absent⟩, t) :=
  fun _ => ⟨rfl, rfl⟩

/-- Delivery writes the table in the cases Complete and Stored alone (R195 to R199). -/
theorem deliver_failsCleanly (p : Packet) (v : Session) (t : Table) : failsCleanly t (deliver p v t) := by
  rcases deliver_cases p v t with ⟨-, heq⟩ | ⟨-, -, heq⟩ | ⟨-, -, -, heq⟩ | ⟨-, -, -, heq⟩
  all_goals rw [heq]
  · exact failsCleanly_of_absent _ t
  · exact failsCleanly_of_absent _ t
  · exact failsCleanly_of_success (by decide) _ t _
  · exact failsCleanly_of_success (by decide) _ t _

/-- PROCESS refuses a packet, invalid or over the cap, before any write (R192, R193). -/
theorem processPacket_failsCleanly (c : Params) (p : Packet) (nowMs : Time) (t : Table) :
    failsCleanly t (processPacket c p nowMs t) := by
  rcases processPacket_cases c p nowMs t with ⟨-, heq⟩ | ⟨-, -, -, heq⟩ | ⟨-, -, -, heq⟩ | ⟨v, -, -, heq⟩
  all_goals rw [heq]
  · exact failsCleanly_of_absent _ t
  · exact failsCleanly_of_absent _ t
  · exact deliver_failsCleanly p _ t
  · exact deliver_failsCleanly p v t

/-- The command answers in this state, and if it fails it does so cleanly (R240, R246). -/
def answersCleanly (i : Instr) (s : State) : Prop :=
  ∃ r t, exec i s = .next { s with sessions := t, responses := s.responses ++ [r] } ∧ failsCleanly s.sessions (r, t)

section
variable {i : Instr} {s : State}

theorem answersCleanly_of_ok {v : Result} (h : exec i s = .next { s with responses := s.responses ++ [⟨.ok, v⟩] }) :
    answersCleanly i s :=
  ⟨⟨.ok, v⟩, s.sessions, h, failsCleanly_of_success (by decide) _ _ _⟩

theorem answersCleanly_of_absent {st : Status}
    (h : exec i s = .next { s with responses := s.responses ++ [⟨st, .absent⟩] }) : answersCleanly i s :=
  ⟨⟨st, .absent⟩, s.sessions, h, failsCleanly_of_absent _ _⟩

/-- A command that tests the packet's size first (R104, R105, R106, R181) answers OK or InvalidPayloadSize. -/
theorem answersCleanly_of_sizeTest {p : Packet} {v : Result}
    (h : exec i s = if oversized s.params p then raise .invalidPayloadSize s else reply .ok v s) :
    answersCleanly i s := by
  rcases Nat.lt_or_ge s.params.N p.payloadSize.toNat with hover | hfits
  · exact answersCleanly_of_absent (h.trans (sizeTest_of_oversized hover v))
  · exact answersCleanly_of_ok (h.trans (sizeTest_of_fits hfits v))

end

theorem answersCleanly_parse (raw : Bytes) (s : State) : answersCleanly (.parse raw) s := by
  rcases Nat.lt_or_ge raw.length s.params.maxPacketSize with hshort | hlong
  · exact answersCleanly_of_absent (exec_parse_of_short hshort)
  · have hexec := exec_parse_of_long hlong
    by_cases hvalid : validate s.params (wireDecode s.params raw) = .ok
    · rw [hvalid] at hexec
      exact answersCleanly_of_ok hexec
    · rw [if_neg hvalid] at hexec
      exact answersCleanly_of_absent hexec

theorem answersCleanly_split (buf : Bytes) (startingMessageId : U16) (s : State) :
    answersCleanly (.split buf startingMessageId) s := by
  rcases Nat.lt_or_ge (255 * s.params.N) buf.length with hlong | hfits
  · exact answersCleanly_of_absent (exec_split_of_long hlong _)
  · rcases Nat.eq_zero_or_pos buf.length with hzero | hpos
    · obtain rfl := List.length_eq_zero_iff.1 hzero
      exact answersCleanly_of_ok (exec_split_nil _ s)
    · exact answersCleanly_of_ok (exec_split_of_fits hpos hfits _)

/-- Settles O42: of the commands that write the table, PRUNE and RESET always answer OK and PROCESS fails cleanly; the
others give their results with OK alone. -/
theorem failureLeavesStateAlone : Obligations.FailureLeavesStateAlone := by
  unfold Obligations.FailureLeavesStateAlone
  intro i s
  show answersCleanly i s
  cases i with
  | crc16 p => exact answersCleanly_of_sizeTest rfl
  | finalize p => exact answersCleanly_of_sizeTest rfl
  | verify p => exact answersCleanly_of_sizeTest rfl
  | extract p => exact answersCleanly_of_sizeTest rfl
  | validate p => exact answersCleanly_of_absent (exec_validate_eq p s)
  | encode p => exact answersCleanly_of_ok (exec_encode_eq p s)
  | parse raw => exact answersCleanly_parse raw s
  | split buf startingMessageId => exact answersCleanly_split buf startingMessageId s
  | process p nowMs =>
    exact ⟨_, _, exec_process_eq p nowMs s, processPacket_failsCleanly s.params p nowMs s.sessions⟩
  | prune nowMs timeoutMs =>
    exact ⟨_, _, exec_prune_eq nowMs timeoutMs s, failsCleanly_of_success (by decide) _ _ _⟩
  | reset => exact ⟨_, _, exec_reset_eq s, failsCleanly_of_success (by decide) _ _ _⟩

end Sys2Proof.Machine
end

section
/-! Reset (R270, R271): the state it leaves, and that a run of commands remembers nothing but the parameters and the table,
as one command does (R20). -/

namespace Sys2Proof.Machine

/-- From two states with the same parameters and the same table a run is answered alike and leaves the same table (R20). -/
theorem runInstrs_reads_params_and_table (run : List Instr) {s s' : State} (hparams : s'.params = s.params)
    (hsessions : s'.sessions = s.sessions) :
    ∃ (rs : List Response) (t : Table),
      runInstrs run s = some { s with sessions := t, responses := s.responses ++ rs } ∧
      runInstrs run s' = some { s' with sessions := t, responses := s'.responses ++ rs } := by
  induction run generalizing s s' with
  | nil => exact ⟨[], s.sessions, by simp [runInstrs], by simp [runInstrs, ← hsessions]⟩
  | cons i is ih =>
    obtain ⟨r, t, hexec, hexec'⟩ := (sessionTableIsTheOnlyMemory i s s' hparams).1 hsessions
    obtain ⟨rs, u, hrun, hrun'⟩ := ih (s := { s with sessions := t, responses := s.responses ++ [r] })
      (s' := { s' with sessions := t, responses := s'.responses ++ [r] }) hparams rfl
    refine ⟨r :: rs, u, ?_, ?_⟩
    · rw [runInstrs_cons hexec, hrun, List.append_assoc, List.singleton_append]
    · rw [runInstrs_cons hexec', hrun', List.append_assoc, List.singleton_append]

/-- Settles O41: RESET leaves the parameters and the empty table, which are all that a run reads of the reset state. -/
theorem resetCannotBeToldFromHardwareReset : Obligations.ResetCannotBeToldFromHardwareReset := by
  unfold Obligations.ResetCannotBeToldFromHardwareReset
  intro s t run hreset
  rw [exec_reset_eq] at hreset
  cases hreset
  obtain ⟨rs, u, hrun, hrun'⟩ := runInstrs_reads_params_and_table run
    (s := { s with sessions := [], responses := s.responses ++ [⟨.ok, .absent⟩] })
    (s' := { State.reset with params := s.params }) rfl rfl
  exact ⟨_, _, rs, hrun, hrun', rfl, List.nil_append rs, rfl⟩

/-- Settles O40: the cap is one more than a free number (log entry 4), so of it only its legal range is known (R10). -/
theorem resetStateIsEmpty : Obligations.ResetStateIsEmpty := by
  unfold Obligations.ResetStateIsEmpty
  exact ⟨rfl, lookup_nil, rfl, rfl, State.reset.params.sessions_ge⟩

end Sys2Proof.Machine
end

section
/-! Contents of the port that are no command of the spec (log entries 5 and 6): what the decoder says of them, and the
step's refusal. -/

namespace Sys2Proof

section
variable {c : Params} {cmd : Command} {m : Mnemonic} (hm : decodeOpcode cmd.opcode = some m)
include hm

/-- Operand values that are not the operation's (R71) are no instruction. -/
theorem decode_of_other_operands (ho : assembleOperands m cmd.operands = none) :
    decode c cmd = .error .operandsNotOfCommand := by
  simp only [decode, hm, ho]

/-- A packet operand whose payload is not N bytes (R71, D30) makes no instruction. -/
theorem decode_of_not_wf {i : Instr} (ho : assembleOperands m cmd.operands = some i) (hw : i.wf c = false) :
    decode c cmd = .error .payloadNotSlotSize := by
  simp only [decode, hm, ho, hw, Bool.false_eq_true, if_false]

end

end Sys2Proof

namespace Sys2Proof.Machine

/-- A waiting command that does not decode is taken from the port and answered as the decoder's reason says. -/
theorem step_of_undecoded {s : State} {cmd : Command} {rest : List Command} {e : DecodeError}
    (hc : s.commands = cmd :: rest) (hd : decode s.params cmd = .error e) :
    step s = answerUndecoded e (s.setCommands rest) := by
  rw [step_of_command hc, runCommand, State.setCommands_params, hd]

/-- Settles O51: each content has its own reason not to decode, and the step refuses it by that name. -/
theorem malformedPortContentIsRefused : Obligations.MalformedPortContentIsRefused := by
  unfold Obligations.MalformedPortContentIsRefused
  intro s cmd rest m hc hm
  exact ⟨fun ho => step_of_undecoded hc (decode_of_other_operands hm ho),
    fun i ho hw => step_of_undecoded hc (decode_of_not_wf hm ho hw)⟩

end Sys2Proof.Machine
end
